-- ==== Sys2Proof/Word.lean ====
section
/-! DEFINITION. Word.lean: the machine's word types (R5, R6). Everything is unsigned (R6, R102). -/

namespace Sys2Proof

/-- A byte: a `V` register, a timer, one cell of `mem` (R5, R41). -/
abbrev Byte := BitVec 8

/-- A 16-bit value: `pc`, `I`, a stack slot, an instruction word (R5, R60). -/
abbrev Word := BitVec 16

/-- The index of a `V` register. The fields `x` and `y` are 4 bits, so an index is always 0..15 (R11, R63). -/
abbrev RegIdx := Fin 16

/-- The 16 key levels of one frame, bit `k` for logical key `k` (R27), and the set of keys seen pressed (R25). -/
abbrev Keys := BitVec 16

/-- The 80 font bytes, glyph `d` at `5 * d` (R5, R182). -/
abbrev Font := Vector Byte 80

/-- The framebuffer grid: 32 rows, each of 64 pixels; `fb[r][c]`, `true` meaning set (R26). -/
abbrev Framebuffer := Vector (Vector Bool 64) 32

end Sys2Proof
end

