-- ==== Sys2Proof/Syntax.lean ====
section
/-! DEFINITION. Syntax.lean: the instructions, one constructor per row of spec/opcode_table.json (R66). A field is
what R61 names it: `x`, `y` register indexes, `kk` an immediate byte, `nnn` an address immediate, `n` a nibble. -/

namespace Sys2Proof

inductive Instr where
  /-- `00E0`, clear screen (R130). -/
  | cls
  /-- `00EE`, return (R81). -/
  | ret
  /-- `1nnn`, jump (R82). -/
  | jp (nnn : BitVec 12)
  /-- `2nnn`, call (R83). -/
  | call (nnn : BitVec 12)
  /-- `3xkk`, skip if `V[x] == kk` (R110). -/
  | seImm (x : RegIdx) (kk : Byte)
  /-- `4xkk`, skip if `V[x] != kk` (R111). -/
  | sneImm (x : RegIdx) (kk : Byte)
  /-- `5xyn`, skip if `V[x] == V[y]` (R112); `n` is the low nibble, which the machine ignores (R68). -/
  | seReg (x y : RegIdx) (n : BitVec 4)
  /-- `6xkk`, load immediate (R90). -/
  | ldImm (x : RegIdx) (kk : Byte)
  /-- `7xkk`, add immediate (R91). -/
  | addImm (x : RegIdx) (kk : Byte)
  /-- `8xy0`, copy (R92). -/
  | ldReg (x y : RegIdx)
  /-- `8xy1`, OR (R93). -/
  | orReg (x y : RegIdx)
  /-- `8xy2`, AND (R94). -/
  | andReg (x y : RegIdx)
  /-- `8xy3`, XOR (R95). -/
  | xorReg (x y : RegIdx)
  /-- `8xy4`, add with carry flag (R96). -/
  | addReg (x y : RegIdx)
  /-- `8xy5`, subtract (R97). -/
  | subReg (x y : RegIdx)
  /-- `8xy6`, shift right (R98). -/
  | shrReg (x y : RegIdx)
  /-- `8xy7`, reverse subtract (R99). -/
  | subnReg (x y : RegIdx)
  /-- `8xyE`, shift left (R100). -/
  | shlReg (x y : RegIdx)
  /-- `9xyn`, skip if `V[x] != V[y]` (R113); `n` is the low nibble, which the machine ignores (R68). -/
  | sneReg (x y : RegIdx) (n : BitVec 4)
  /-- `Annn`, load `I` (R120). -/
  | ldI (nnn : BitVec 12)
  /-- `Bnnn`, offset jump (R84). -/
  | jpOff (nnn : BitVec 12)
  /-- `Cxkk`, random (R101). -/
  | rnd (x : RegIdx) (kk : Byte)
  /-- `Dxyn`, draw sprite of `n` rows (R131). -/
  | drw (x y : RegIdx) (n : BitVec 4)
  /-- `Ex9E`, skip if key held (R114). -/
  | skp (x : RegIdx)
  /-- `ExA1`, skip if key not held (R115). -/
  | sknp (x : RegIdx)
  /-- `Fx07`, read delay timer (R140). -/
  | ldDt (x : RegIdx)
  /-- `Fx0A`, wait for key (R143). -/
  | ldKey (x : RegIdx)
  /-- `Fx15`, set delay timer (R141). -/
  | setDt (x : RegIdx)
  /-- `Fx18`, set sound timer (R142). -/
  | setSt (x : RegIdx)
  /-- `Fx1E`, add to `I` (R121). -/
  | addI (x : RegIdx)
  /-- `Fx29`, glyph address (R122). -/
  | ldGlyph (x : RegIdx)
  /-- `Fx33`, BCD store (R123). -/
  | bcd (x : RegIdx)
  /-- `Fx55`, register dump (R124). -/
  | dump (x : RegIdx)
  /-- `Fx65`, register load (R125). -/
  | load (x : RegIdx)
  /-- Any other word `w`: the no-op of R65 (R80, R103, R117, R126). The word is kept so that no bit is dropped. -/
  | nop (w : Word)
deriving DecidableEq, Repr

end Sys2Proof
end

