-- ==== Sys2Proof/WellFormed.lean ====
section
/-! DEFINITION. WellFormed.lean: the opcode map of R66 as data, and which terms of `Instr` stand for a word. The
operand types of `Instr` have exactly the widths of R61, so the one thing left to check is that a `nop` carries a word
no row recognises. -/

namespace Sys2Proof

/-- One row of R66's map: a word `w` selects the row when `w & mask == pat`. -/
structure OpRow where
  mnemonic : String
  mask : Word
  pat : Word
deriving DecidableEq, Repr

/-- Rows of R66, from `00E0` to `7xkk`. -/
def opRowsLow : List OpRow := [
  ⟨"00E0", 0xFFFF, 0x00E0⟩, ⟨"00EE", 0xFFFF, 0x00EE⟩, ⟨"1nnn", 0xF000, 0x1000⟩, ⟨"2nnn", 0xF000, 0x2000⟩,
  ⟨"3xkk", 0xF000, 0x3000⟩, ⟨"4xkk", 0xF000, 0x4000⟩, ⟨"5xy0", 0xF000, 0x5000⟩, ⟨"6xkk", 0xF000, 0x6000⟩,
  ⟨"7xkk", 0xF000, 0x7000⟩]

/-- Rows of R66, family 8. -/
def opRowsFamily8 : List OpRow := [
  ⟨"8xy0", 0xF00F, 0x8000⟩, ⟨"8xy1", 0xF00F, 0x8001⟩, ⟨"8xy2", 0xF00F, 0x8002⟩, ⟨"8xy3", 0xF00F, 0x8003⟩,
  ⟨"8xy4", 0xF00F, 0x8004⟩, ⟨"8xy5", 0xF00F, 0x8005⟩, ⟨"8xy6", 0xF00F, 0x8006⟩, ⟨"8xy7", 0xF00F, 0x8007⟩,
  ⟨"8xyE", 0xF00F, 0x800E⟩]

/-- Rows of R66, from `9xy0` to `ExA1`. -/
def opRowsHigh : List OpRow := [
  ⟨"9xy0", 0xF000, 0x9000⟩, ⟨"Annn", 0xF000, 0xA000⟩, ⟨"Bnnn", 0xF000, 0xB000⟩, ⟨"Cxkk", 0xF000, 0xC000⟩,
  ⟨"Dxyn", 0xF000, 0xD000⟩, ⟨"Ex9E", 0xF0FF, 0xE09E⟩, ⟨"ExA1", 0xF0FF, 0xE0A1⟩]

/-- Rows of R66, family F. -/
def opRowsFamilyF : List OpRow := [
  ⟨"Fx07", 0xF0FF, 0xF007⟩, ⟨"Fx0A", 0xF0FF, 0xF00A⟩, ⟨"Fx15", 0xF0FF, 0xF015⟩, ⟨"Fx18", 0xF0FF, 0xF018⟩,
  ⟨"Fx1E", 0xF0FF, 0xF01E⟩, ⟨"Fx29", 0xF0FF, 0xF029⟩, ⟨"Fx33", 0xF0FF, 0xF033⟩, ⟨"Fx55", 0xF0FF, 0xF055⟩,
  ⟨"Fx65", 0xF0FF, 0xF065⟩]

/-- The 34 rows that recognise a word (R66 without its last row). -/
def opRows : List OpRow := opRowsLow ++ opRowsFamily8 ++ opRowsHigh ++ opRowsFamilyF

/-- R66's map, the catch-all no-op row last. -/
def opTable : List OpRow := opRows ++ [⟨"NOP", 0x0000, 0x0000⟩]

/-- The row selects the word (R66). -/
def OpRow.selects (r : OpRow) (w : Word) : Bool := w &&& r.mask == r.pat

/-- Some row other than the last selects the word. -/
def recognised (w : Word) : Bool := opRows.any (fun r => r.selects w)

/-- The position in `opTable` of the first row that selects the word: "the first match wins" (R66). -/
def firstRow (w : Word) : Nat := opTable.findIdx (fun r => r.selects w)

/-- The position in `opTable` of an instruction's own row. -/
def Instr.row : Instr → Nat
  | .cls => 0
  | .ret => 1
  | .jp _ => 2
  | .call _ => 3
  | .seImm _ _ => 4
  | .sneImm _ _ => 5
  | .seReg _ _ _ => 6
  | .ldImm _ _ => 7
  | .addImm _ _ => 8
  | .ldReg _ _ => 9
  | .orReg _ _ => 10
  | .andReg _ _ => 11
  | .xorReg _ _ => 12
  | .addReg _ _ => 13
  | .subReg _ _ => 14
  | .shrReg _ _ => 15
  | .subnReg _ _ => 16
  | .shlReg _ _ => 17
  | .sneReg _ _ _ => 18
  | .ldI _ => 19
  | .jpOff _ => 20
  | .rnd _ _ => 21
  | .drw _ _ _ => 22
  | .skp _ => 23
  | .sknp _ => 24
  | .ldDt _ => 25
  | .ldKey _ => 26
  | .setDt _ => 27
  | .setSt _ => 28
  | .addI _ => 29
  | .ldGlyph _ => 30
  | .bcd _ => 31
  | .dump _ => 32
  | .load _ => 33
  | .nop _ => 34

/-- Well-formedness: a `nop` carries a word that no row of R66 recognises; every other term stands for a word. -/
def Instr.wf : Instr → Bool
  | .nop w => !recognised w
  | .cls | .ret | .jp _ | .call _ | .seImm _ _ | .sneImm _ _ | .seReg _ _ _ | .ldImm _ _ | .addImm _ _
  | .ldReg _ _ | .orReg _ _ | .andReg _ _ | .xorReg _ _ | .addReg _ _ | .subReg _ _ | .shrReg _ _ | .subnReg _ _
  | .shlReg _ _ | .sneReg _ _ _ | .ldI _ | .jpOff _ | .rnd _ _ | .drw _ _ _ | .skp _ | .sknp _ | .ldDt _
  | .ldKey _ | .setDt _ | .setSt _ | .addI _ | .ldGlyph _ | .bcd _ | .dump _ | .load _ => true

end Sys2Proof
end

