-- ==== Sys2Proof/Decode.lean ====
section
/-! DEFINITION. Decode.lean: the decoder, from R61 (fields), R64 (dispatch by the top nibble), R67 to R70 (the
secondary decodes of families 0, 5, 8, 9, E and F) and R65 (every other word is the no-op); and the encoder, from the
encodings of R62 and R66. -/

namespace Sys2Proof

/-! ## Fields of a word (R61) -/

/-- `op = w[15:12]`. -/
def fieldOp (w : Word) : BitVec 4 := w.extractLsb' 12 4

/-- `x = w[11:8]`. -/
def fieldX (w : Word) : RegIdx := (w.extractLsb' 8 4).toFin

/-- `y = w[7:4]`. -/
def fieldY (w : Word) : RegIdx := (w.extractLsb' 4 4).toFin

/-- `n = w[3:0]`. -/
def fieldN (w : Word) : BitVec 4 := w.extractLsb' 0 4

/-- `kk = w[7:0]`. -/
def fieldKk (w : Word) : Byte := w.extractLsb' 0 8

/-- `nnn = w[11:0]`. -/
def fieldNnn (w : Word) : BitVec 12 := w.extractLsb' 0 12

/-! ## The decoder -/

/-- Family 0 matches the whole word (R67). -/
def decodeFamily0 (w : Word) : Instr :=
  if w = 0x00E0#16 then .cls
  else if w = 0x00EE#16 then .ret
  else .nop w

/-- Family 8: "a secondary switch on `n`" (R69). -/
def decodeFamily8 (w : Word) : Instr :=
  if fieldN w = 0x0#4 then .ldReg (fieldX w) (fieldY w)
  else if fieldN w = 0x1#4 then .orReg (fieldX w) (fieldY w)
  else if fieldN w = 0x2#4 then .andReg (fieldX w) (fieldY w)
  else if fieldN w = 0x3#4 then .xorReg (fieldX w) (fieldY w)
  else if fieldN w = 0x4#4 then .addReg (fieldX w) (fieldY w)
  else if fieldN w = 0x5#4 then .subReg (fieldX w) (fieldY w)
  else if fieldN w = 0x6#4 then .shrReg (fieldX w) (fieldY w)
  else if fieldN w = 0x7#4 then .subnReg (fieldX w) (fieldY w)
  else if fieldN w = 0xE#4 then .shlReg (fieldX w) (fieldY w)
  else .nop w

/-- Family E: a secondary switch on `kk` (R70). -/
def decodeFamilyE (w : Word) : Instr :=
  if fieldKk w = 0x9E#8 then .skp (fieldX w)
  else if fieldKk w = 0xA1#8 then .sknp (fieldX w)
  else .nop w

/-- Family F: a secondary switch on `kk` (R70). -/
def decodeFamilyF (w : Word) : Instr :=
  if fieldKk w = 0x07#8 then .ldDt (fieldX w)
  else if fieldKk w = 0x0A#8 then .ldKey (fieldX w)
  else if fieldKk w = 0x15#8 then .setDt (fieldX w)
  else if fieldKk w = 0x18#8 then .setSt (fieldX w)
  else if fieldKk w = 0x1E#8 then .addI (fieldX w)
  else if fieldKk w = 0x29#8 then .ldGlyph (fieldX w)
  else if fieldKk w = 0x33#8 then .bcd (fieldX w)
  else if fieldKk w = 0x55#8 then .dump (fieldX w)
  else if fieldKk w = 0x65#8 then .load (fieldX w)
  else .nop w

/-- The total decoder of R73: dispatch by `op` (R64); families 5 and 9 ignore `n` (R68). -/
def decode (w : Word) : Instr :=
  if fieldOp w = 0x0#4 then decodeFamily0 w
  else if fieldOp w = 0x1#4 then .jp (fieldNnn w)
  else if fieldOp w = 0x2#4 then .call (fieldNnn w)
  else if fieldOp w = 0x3#4 then .seImm (fieldX w) (fieldKk w)
  else if fieldOp w = 0x4#4 then .sneImm (fieldX w) (fieldKk w)
  else if fieldOp w = 0x5#4 then .seReg (fieldX w) (fieldY w) (fieldN w)
  else if fieldOp w = 0x6#4 then .ldImm (fieldX w) (fieldKk w)
  else if fieldOp w = 0x7#4 then .addImm (fieldX w) (fieldKk w)
  else if fieldOp w = 0x8#4 then decodeFamily8 w
  else if fieldOp w = 0x9#4 then .sneReg (fieldX w) (fieldY w) (fieldN w)
  else if fieldOp w = 0xA#4 then .ldI (fieldNnn w)
  else if fieldOp w = 0xB#4 then .jpOff (fieldNnn w)
  else if fieldOp w = 0xC#4 then .rnd (fieldX w) (fieldKk w)
  else if fieldOp w = 0xD#4 then .drw (fieldX w) (fieldY w) (fieldN w)
  else if fieldOp w = 0xE#4 then decodeFamilyE w
  else decodeFamilyF w

/-- Why the byte decoder gives no instruction. No word is ever refused (R65, R73); only a missing byte is. -/
inductive DecodeError where
  /-- Fewer than the two bytes of an instruction (R60). -/
  | truncated
deriving DecidableEq, Repr

/-- Two bytes to a word, big-endian: the byte at the lower address in bits 15:8 (R44). -/
def wordOfBytes (hi lo : Byte) : Word := hi ++ lo

/-- Decode the instruction at the head of a byte list; answer it with the bytes after it (R60, R71). -/
def decodeBytes : List Byte → Except DecodeError (Instr × List Byte)
  | hi :: lo :: rest => .ok (decode (wordOfBytes hi lo), rest)
  | _ => .error .truncated

/-- The two bytes of a word in memory order (R44). -/
def bytesOfWord (w : Word) : List Byte := [w.extractLsb' 8 8, w.extractLsb' 0 8]

/-- What this decoder reads from an instruction whose bits are `w`, bit 0 the least significant bit of its one 16-bit
word. Every row of spec/opcode_table.json is 16 bits, so a `w` of more bits is no instruction's. -/
def decodeTableWord (nbits w : Nat) : Option Instr :=
  if nbits ≤ 16 ∧ w < 65536 then
    match decodeBytes (bytesOfWord (BitVec.ofNat 16 w)) with
    | .ok (i, _) => some i
    | .error _ => none
  else none

/-! ## The encoder (R62, R66) -/

/-- Format `A` of R62. -/
def wordA (op : BitVec 4) (nnn : BitVec 12) : Word := op ++ nnn

/-- Formats `RI` and `R` of R62: `kk` is an immediate or a sub-opcode. -/
def wordRI (op : BitVec 4) (x : RegIdx) (kk : Byte) : Word := op ++ BitVec.ofFin (w := 4) x ++ kk

/-- Format `RR` of R62: `n` is a sub-opcode, a height or ignored. -/
def wordRR (op : BitVec 4) (x y : RegIdx) (n : BitVec 4) : Word :=
  op ++ BitVec.ofFin (w := 4) x ++ BitVec.ofFin (w := 4) y ++ n

/-- The word of an instruction (R66). -/
def encode : Instr → Word
  | .cls => 0x00E0#16
  | .ret => 0x00EE#16
  | .jp nnn => wordA 0x1#4 nnn
  | .call nnn => wordA 0x2#4 nnn
  | .seImm x kk => wordRI 0x3#4 x kk
  | .sneImm x kk => wordRI 0x4#4 x kk
  | .seReg x y n => wordRR 0x5#4 x y n
  | .ldImm x kk => wordRI 0x6#4 x kk
  | .addImm x kk => wordRI 0x7#4 x kk
  | .ldReg x y => wordRR 0x8#4 x y 0x0#4
  | .orReg x y => wordRR 0x8#4 x y 0x1#4
  | .andReg x y => wordRR 0x8#4 x y 0x2#4
  | .xorReg x y => wordRR 0x8#4 x y 0x3#4
  | .addReg x y => wordRR 0x8#4 x y 0x4#4
  | .subReg x y => wordRR 0x8#4 x y 0x5#4
  | .shrReg x y => wordRR 0x8#4 x y 0x6#4
  | .subnReg x y => wordRR 0x8#4 x y 0x7#4
  | .shlReg x y => wordRR 0x8#4 x y 0xE#4
  | .sneReg x y n => wordRR 0x9#4 x y n
  | .ldI nnn => wordA 0xA#4 nnn
  | .jpOff nnn => wordA 0xB#4 nnn
  | .rnd x kk => wordRI 0xC#4 x kk
  | .drw x y n => wordRR 0xD#4 x y n
  | .skp x => wordRI 0xE#4 x 0x9E#8
  | .sknp x => wordRI 0xE#4 x 0xA1#8
  | .ldDt x => wordRI 0xF#4 x 0x07#8
  | .ldKey x => wordRI 0xF#4 x 0x0A#8
  | .setDt x => wordRI 0xF#4 x 0x15#8
  | .setSt x => wordRI 0xF#4 x 0x18#8
  | .addI x => wordRI 0xF#4 x 0x1E#8
  | .ldGlyph x => wordRI 0xF#4 x 0x29#8
  | .bcd x => wordRI 0xF#4 x 0x33#8
  | .dump x => wordRI 0xF#4 x 0x55#8
  | .load x => wordRI 0xF#4 x 0x65#8
  | .nop w => w

/-- The two bytes of an instruction in memory order. -/
def encodeBytes (i : Instr) : List Byte := bytesOfWord (encode i)

end Sys2Proof
end

