-- ==== Sys2Proof/Config.lean ====
section
/-! DEFINITION. Config.lean: what is fixed for a run (R4), the fixed sizes (R5), and the free values: the
configuration of the run from reset, the key levels of each frame, the byte of each random draw. -/

namespace Sys2Proof

/-- The configuration of R4, "fixed for the lifetime of a run", and the font bytes, which are a parameter too
(R5, R182). Plain data, carried in `State.cfg` ("passed alongside the state", R29); no operation writes it. -/
structure Config where
  /-- OR, AND and XOR force VF to 0 after the operation (R93 to R95). -/
  vfResetOnLogic : Bool
  /-- `Fx55` and `Fx65` advance `I` by `x + 1` after completing (R124, R125). -/
  memoryIncrementsI : Bool
  /-- The frame's budget is cut short before a draw that is not the frame's first instruction (R170, R171). -/
  haltBeforeDraw : Bool
  /-- Sprite pixels outside the framebuffer are discarded rather than wrapped (R131). -/
  clipSprites : Bool
  /-- The shifts copy `V[y]` into `V[x]` first (R98, R100). -/
  shiftUsesVy : Bool
  /-- The offset jump adds `V[x]` instead of `V[0]` (R84). -/
  jumpUsesVx : Bool
  /-- The most instructions executed in one frame; 0 is allowed (R170, R172). -/
  instructionsPerFrame : Nat
  /-- The 80 bytes at addresses 0 to 79 after reset (R32, R182). -/
  font : Font
deriving DecidableEq, Repr, Inhabited

/-- `MEM_SIZE` of R5: `mem` has addresses 0 to 4095. -/
def memSize : Nat := 4096

/-- `LOAD_ORIGIN` of R5: where the program is loaded and where `pc` starts. -/
def loadOrigin : Nat := 0x200

/-- `PROG_MAX` of R5: the program bytes beyond this many are dropped. -/
def progMax : Nat := 3584

/-- `FONT_SIZE` of R5; the font starts at address 0. -/
def fontSize : Nat := 80

/-- FREE VALUE: the configuration of the run that starts at `State.reset`. R4 leaves all six toggles, the budget
and (R182) the font OPEN, so nothing can be proved of this constant. Log entry 1. -/
opaque Config.ofRun : Config

/-- FREE VALUE: the key levels the host supplies with the frame of this number, when `State.keyInputs` gives none
(R27, R174: "any sequence is possible"). Log entry 3. -/
opaque Config.freeKeys : Nat → Keys

/-- FREE VALUE: `Rand8()` of the draw of this number, when `State.drawInputs` gives none (R31, R101: "a free draw").
Log entry 4. -/
opaque Config.freeDraw : Nat → Byte

/-- The conventional font table that R182 offers for tests. No rule and no operation of the model uses it. -/
def conventionalFont : Font :=
  (#v[0xF0, 0x90, 0x90, 0x90, 0xF0, 0x20, 0x60, 0x20, 0x20, 0x70, 0xF0, 0x10, 0xF0, 0x80, 0xF0,
     0xF0, 0x10, 0xF0, 0x10, 0xF0, 0x90, 0x90, 0xF0, 0x10, 0x10, 0xF0, 0x80, 0xF0, 0x10, 0xF0,
     0xF0, 0x80, 0xF0, 0x90, 0xF0, 0xF0, 0x10, 0x20, 0x40, 0x40] : Vector Byte 40) ++
  (#v[0xF0, 0x90, 0xF0, 0x90, 0xF0, 0xF0, 0x90, 0xF0, 0x10, 0xF0, 0xF0, 0x90, 0xF0, 0x90, 0x90,
     0xE0, 0x90, 0xE0, 0x90, 0xE0, 0xF0, 0x80, 0x80, 0x80, 0xF0, 0xE0, 0x90, 0x90, 0x90, 0xE0,
     0xF0, 0x80, 0xF0, 0x80, 0xF0, 0xF0, 0x80, 0xF0, 0x80, 0x80] : Vector Byte 40)

end Sys2Proof
end

