-- ==== Sys2Proof/Machine/State.lean ====
section
/-! DEFINITION. Machine/State.lean: every piece of state of R10, the inputs the host supplies, the place in `Frame`
(R170), and the state right after reset (R32). -/

namespace Sys2Proof.Machine

/-- `mem` (R22): the bytes that differ from what an unlisted address reads as, addresses strictly rising. -/
abbrev Memory := List Host.Cell

/-- The four non-fatal diagnostics of R151. They change no architectural state. -/
inductive Diag where
  /-- A byte read at an address of 4096 or more (R152). -/
  | memReadOor
  /-- A byte write at an address of 4096 or more (R153). -/
  | memWriteOor
  /-- `2nnn` executed with `sp == 15` (R154). -/
  | stackOverflow
  /-- `00EE` executed with `sp == 0` (R155). -/
  | stackUnderflow
deriving DecidableEq, Repr

/-- Where in `Frame(keys)` of R170 the machine stands between two steps. The MODEL's own data, log entry 2. -/
inductive Phase where
  /-- The next step begins a frame: it takes the frame's key levels and chooses the branch. -/
  | frameStart
  /-- Inside the instruction loop: `ran` instructions have run in this frame (R170's `count`), `left` may still. -/
  | running (ran left : Nat)
  /-- The branch is over; the next step is the frame's one `Tick()`. -/
  | tickDue
deriving DecidableEq, Repr

structure State where
  /-- `V[0..15]` (R11); `V[15]` is VF (R12). -/
  v : Vector Byte 16
  /-- The program counter (R13); while an instruction executes, its address plus 2 (R14). -/
  pc : Word
  /-- `I`, the address register (R16, R17). -/
  i : Word
  /-- `DT`, the delay timer (R18). -/
  dt : Byte
  /-- `ST`, the sound timer (R19). -/
  st : Byte
  /-- The 16 return-address slots (R20). -/
  stack : Vector Word 16
  /-- `stack_pointer`, the next free slot (R20, R21). -/
  sp : Fin 16
  /-- `mem`, 4096 bytes (R22). -/
  mem : Memory
  /-- `key_waiting`: true is the state AwaitingKey (R23, R164). -/
  keyWaiting : Bool
  /-- `key_target_register` (R24). -/
  keyTarget : RegIdx
  /-- `keys_observed_pressed`, one bit per key (R25). -/
  keysObserved : Keys
  /-- The framebuffer (R26). -/
  fb : Framebuffer
  /-- `sound_enable`, the output latch (R28). -/
  soundEnable : Bool
  /-- The diagnostics log (R30, R151), newest first; nothing reads it. -/
  diags : List Diag
  /-- The configuration of R4 and the font; no operation writes it (R29). -/
  cfg : Config
  /-- The key levels of the current frame (R27). -/
  keys : Keys
  /-- The place in the frame protocol (R170); the model's own. -/
  phase : Phase
  /-- Key levels the host has committed to for the coming frames, oldest first; the model's own. -/
  keyInputs : List Keys
  /-- How many frames have begun; the model's own. -/
  frameNo : Nat
  /-- `Rand8()` bytes the host has committed to, oldest first; the model's own. -/
  drawInputs : List Byte
  /-- How many draws have been taken; the model's own. -/
  drawNo : Nat
deriving DecidableEq, Repr

/-- Reasons the machine stops with a fault: none. "No condition causes a panic/abort" (R150), there is no trap and no
fault of any kind (R156, R159), the machine never stops (R189). Having no constructor is neither safe nor unsafe: it
is what the spec says. -/
inductive Fault where
deriving DecidableEq, Repr

/-- Reasons an instruction has no meaning in the model. -/
inductive Refusal where
  /-- Raised by an arm of `exec` whose instruction is not modelled yet; no arm raises it. Safe: a stop proves nothing. -/
  | notModelled (mnemonic : String)
deriving DecidableEq, Repr

/-- The machine right after `Reset` of an empty program (R32, R181): zero everywhere, `pc` at 0x200, memory with
nothing listed (it reads as the font below 80 and 0 elsewhere). The configuration is the free `Config.ofRun`. The
model's own fields are DESIGN CHOICE, log entries 2 to 5. -/
def State.reset : State where
  v := Vector.replicate 16 0
  pc := 0x0200
  i := 0
  dt := 0
  st := 0
  stack := Vector.replicate 16 0
  sp := 0
  mem := []
  keyWaiting := false
  keyTarget := 0
  keysObserved := 0
  fb := Vector.replicate 32 (Vector.replicate 64 false)
  soundEnable := false
  diags := []
  cfg := Config.ofRun
  keys := 0
  phase := .frameStart
  keyInputs := []
  frameNo := 0
  drawInputs := []
  drawNo := 0

end Sys2Proof.Machine
end

