-- ==== Sys2Proof/Machine/Ops.lean ====
section
/-! DEFINITION. Machine/Ops.lean: the named operations over memory, registers, stack, framebuffer and inputs (R7), and
the diagnostic, the machine's only "exception" (R7, R151). There is no exception entry and no return from one (R159). -/

namespace Sys2Proof.Machine

/-! ## Memory as a canonical list -/

/-- What an address that `mem` does not list reads as: its reset content (R32), the font byte below 80, else 0. -/
def Memory.unlisted (font : Font) (a : Nat) : Byte := if h : a < fontSize then font[a]'h else 0

/-- The byte the list holds for an address, or what an unlisted one reads as. -/
def Memory.read (font : Font) : Memory → Nat → Byte
  | [], a => Memory.unlisted font a
  | (k, b) :: rest, a => if k = a then b else Memory.read font rest a

/-- Put a byte in its place in the rising list. -/
def Memory.insert : Memory → Nat → Byte → Memory
  | [], a, b => [(a, b)]
  | (k, c) :: rest, a, b =>
    if a < k then (a, b) :: (k, c) :: rest
    else if a = k then (a, b) :: rest
    else (k, c) :: Memory.insert rest a b

/-- Take the entry of an address out of the list. -/
def Memory.erase : Memory → Nat → Memory
  | [], _ => []
  | (k, c) :: rest, a => if k = a then rest else (k, c) :: Memory.erase rest a

/-- Write a byte and keep the canonical form: writing what an unlisted address reads as removes the entry. -/
def Memory.write (font : Font) (m : Memory) (a : Nat) (b : Byte) : Memory :=
  if b = Memory.unlisted font a then Memory.erase m a else Memory.insert m a b

/-- The canonical form: addresses strictly rising, each below 4096, no entry equal to what an unlisted address reads
as. -/
abbrev Memory.wf (font : Font) (m : Memory) : Prop :=
  m.Pairwise (fun p q => p.1 < q.1) ∧ ∀ c ∈ m, c.1 < memSize ∧ c.2 ≠ Memory.unlisted font c.1

/-! ## One setter for each field that an operation writes -/

/-- Read `V[r]` (R7, R11). -/
def State.reg (s : State) (r : RegIdx) : Byte := s.v[r.val]

/-- `V[r] <- b` (R7, R11); no register is hardwired. -/
def State.setReg (s : State) (r : RegIdx) (b : Byte) : State := { s with v := s.v.set r.val b r.isLt }

/-- The index of VF (R12). -/
def regF : RegIdx := 15

/-- `VF <- b`, the flag write of R34. -/
def State.setVF (s : State) (b : Byte) : State := s.setReg regF b

def State.setPc (s : State) (w : Word) : State := { s with pc := w }

def State.setI (s : State) (w : Word) : State := { s with i := w }

def State.setDt (s : State) (b : Byte) : State := { s with dt := b }

def State.setSt (s : State) (b : Byte) : State := { s with st := b }

def State.setSp (s : State) (n : Fin 16) : State := { s with sp := n }

/-- `stack[k] <- w` (R7, R20). -/
def State.setSlot (s : State) (k : Fin 16) (w : Word) : State := { s with stack := s.stack.set k.val w k.isLt }

def State.setMem (s : State) (m : Memory) : State := { s with mem := m }

def State.setKeyWaiting (s : State) (b : Bool) : State := { s with keyWaiting := b }

def State.setKeyTarget (s : State) (r : RegIdx) : State := { s with keyTarget := r }

def State.setKeysObserved (s : State) (k : Keys) : State := { s with keysObserved := k }

def State.setFb (s : State) (f : Framebuffer) : State := { s with fb := f }

def State.setSoundEnable (s : State) (b : Bool) : State := { s with soundEnable := b }

/-- `diag(kind)` of R151: append one event; nothing else changes. -/
def State.addDiag (s : State) (d : Diag) : State := { s with diags := d :: s.diags }

def State.setKeys (s : State) (k : Keys) : State := { s with keys := k }

def State.setPhase (s : State) (p : Phase) : State := { s with phase := p }

/-! ## The memory primitives (R42, R43) -/

/-- The value of `MemRead(addr, 1)`: `mem[addr]` below 4096, else 0 (R42). -/
def State.peek (s : State) (a : Nat) : Byte := if a < memSize then Memory.read s.cfg.font s.mem a else 0

/-- The diagnostic of `MemRead(addr, 1)`: `MEM_READ_OOR` at 4096 or more, else nothing (R42). -/
def State.noteRead (s : State) (a : Nat) : State := if a < memSize then s else s.addDiag .memReadOor

/-- `MemRead(addr, 1)` of R42: the byte and the state after it. -/
def memRead (a : Nat) (s : State) : Byte × State := (s.peek a, s.noteRead a)

/-- `MemWrite(addr, 1, b)` of R43: stored below 4096, else dropped with `MEM_WRITE_OOR`. -/
def memWrite (a : Nat) (b : Byte) (s : State) : State :=
  if a < memSize then s.setMem (Memory.write s.cfg.font s.mem a b) else s.addDiag .memWriteOor

/-- Write consecutive bytes from an address up, in ascending order (R47, R55), each bounds-checked on its own. -/
def memWriteList : Nat → List Byte → State → State
  | _, [], s => s
  | a, b :: bs, s => memWriteList (a + 1) bs (memWrite a b s)

/-! ## Fetch (R44, R60) -/

/-- The instruction word at `pc`, big-endian; `pc` and `pc + 1` as naturals (R44, R50). -/
def State.fetchWord (s : State) : Word := s.peek s.pc.toNat ++ s.peek (s.pc.toNat + 1)

/-- The state after the fetch: both reads noted, `pc` advanced by 2 modulo 65536 (R14, R60). -/
def State.afterFetch (s : State) : State :=
  ((s.noteRead s.pc.toNat).noteRead (s.pc.toNat + 1)).setPc (s.pc + 2)

/-- A skip taken: `pc <- (pc + 2) mod 65536` on top of the fetch increment (R116). -/
def skipIf (c : Bool) (s : State) : State := if c then s.setPc (s.pc + 2) else s

/-! ## The return stack (R20, R81, R83) -/

/-- `Call(addr)` of R83: ignored with a diagnostic at `sp == 15`, else push `pc` and jump. -/
def pushJump (target : Word) (s : State) : State :=
  if s.sp = 15 then s.addDiag .stackOverflow
  else ((s.setSlot s.sp s.pc).setSp (s.sp + 1)).setPc target

/-- `Return()` of R81: ignored with a diagnostic at `sp == 0`, else pop into `pc`, all 16 bits. -/
def popJump (s : State) : State :=
  if s.sp = 0 then s.addDiag .stackUnderflow
  else (s.setSp (s.sp - 1)).setPc s.stack[(s.sp - 1).val]

/-! ## The framebuffer primitives (R26) -/

/-- `FbGet(c, r)`. -/
def fbGet (f : Framebuffer) (c : Fin 64) (r : Fin 32) : Bool := f[r.val][c.val]

/-- `FbSet(c, r, b)`. -/
def fbSet (f : Framebuffer) (c : Fin 64) (r : Fin 32) (b : Bool) : Framebuffer :=
  f.set r.val (f[r.val].set c.val b c.isLt) r.isLt

/-- `FbClear()`: all 2048 bits 0. -/
def fbClear : Framebuffer := Vector.replicate 32 (Vector.replicate 64 false)

/-! ## Inputs: key levels and random draws (R27, R31, R174) -/

/-- `KeyHeld(k)`: bit `k` of the frame's key levels (R27). -/
def keyHeld (k : Keys) (n : Fin 16) : Bool := k.getLsbD n.val

/-- The key levels the host supplies with the next frame: the oldest committed input, else a free value. -/
def State.nextKeys (s : State) : Keys := s.keyInputs.headD (Config.freeKeys s.frameNo)

/-- Take the next frame's key levels: they become the current ones. -/
def State.takeKeys (s : State) : State :=
  { s with keys := s.nextKeys, keyInputs := s.keyInputs.tail, frameNo := s.frameNo + 1 }

/-- The byte of the next `Rand8()`: the oldest committed input, else a free value (R101). -/
def State.nextDraw (s : State) : Byte := s.drawInputs.headD (Config.freeDraw s.drawNo)

/-- Consume one draw (R31). -/
def State.takeDraw (s : State) : State := { s with drawInputs := s.drawInputs.tail, drawNo := s.drawNo + 1 }

/-! ## Reset with a program (R181, R183) -/

/-- `Reset(program)` of R181 under a configuration: the reset state with the program's first 3584 bytes stored from
0x200 up. -/
def State.resetWith (cfg : Config) (program : List Byte) : State :=
  memWriteList loadOrigin (program.take progMax) { State.reset with cfg := cfg }

end Sys2Proof.Machine
end

