-- ==== Sys2Proof/Machine/Operands.lean ====
section
/-! DEFINITION. Machine/Operands.lean: the operand forms: zero-extended immediates (R63), the effective address
`I + k` (R50, R127), register ranges (R124, R125), the selector of the offset jump (R84), key and glyph numbers
(R114, R122), and the 12-bit narrowing of every writer of `I` (R17). -/

namespace Sys2Proof.Machine

/-- A 12-bit immediate zero-extended to 16 bits (R63). -/
def zext16 (nnn : BitVec 12) : Word := nnn.zeroExtend 16

/-- The effective address `I + k`, a natural number that is never reduced (R50, R127). -/
def State.dataAddr (s : State) (k : Nat) : Nat := s.i.toNat + k

/-- A sum narrowed to 12 bits, `& 0xFFF`, as every writer of `I` and the offset jump do (R17, R84). -/
def mask12 (n : Nat) : Word := BitVec.ofNat 16 (n % 4096)

/-- The sixteen register indexes, ascending. -/
def allRegs : List RegIdx := [0, 1, 2, 3, 4, 5, 6, 7, 8, 9, 10, 11, 12, 13, 14, 15]

/-- The registers `0 .. x` of `Fx55` and `Fx65`, ascending (R124, R125). -/
def regsUpTo (x : RegIdx) : List RegIdx := allRegs.take (x.val + 1)

/-- The selector of `Bnnn`: the field `x = nnn[11:8]` with `jump_uses_vx`, else 0 (R84). -/
def jumpSelector (cfg : Config) (nnn : BitVec 12) : RegIdx :=
  if cfg.jumpUsesVx then (nnn.extractLsb' 8 4).toFin else 0

/-- The low four bits of a register, a key number (R114, R115) or a glyph number (R122). -/
def lowNibble (b : Byte) : Fin 16 := (b.extractLsb' 0 4).toFin

/-- The key number of `Ex9E` and `ExA1`: `V[x] & 0xF`. -/
def State.keyOperand (s : State) (x : RegIdx) : Fin 16 := lowNibble (s.reg x)

/-- The shift's first line: `V[x] <- V[y]` when `shift_uses_vy` (R98, R100). -/
def shiftSource (x y : RegIdx) (s : State) : State :=
  if s.cfg.shiftUsesVy then s.setReg x (s.reg y) else s

/-- The advance of `I` that ends `Fx55` and `Fx65`: `I <- (I + x + 1) & 0xFFF` when `memory_increments_i`. -/
def advanceI (x : RegIdx) (s : State) : State :=
  if s.cfg.memoryIncrementsI then s.setI (mask12 (s.i.toNat + x.val + 1)) else s

end Sys2Proof.Machine
end

