-- ==== Sys2Proof/Machine/Flags.lean ====
section
/-! DEFINITION. Machine/Flags.lean: the values written to VF (R34, R102): carry, not-borrow, the bit shifted out, the
collision flag, and the reset after a logic operation. -/

namespace Sys2Proof.Machine

/-- A flag as the byte VF receives: 1 or 0. -/
def flagByte (b : Bool) : Byte := if b then 1 else 0

/-- The carry of `8xy4`: 1 exactly when the true sum is 256 or more (R96, R102). -/
def carryFlag (a b : Byte) : Byte := flagByte (decide (256 ≤ a.toNat + b.toNat))

/-- The not-borrow of `a - b`: 0 when the true difference is negative, else 1 (R97, R99, R102). -/
def notBorrowFlag (a b : Byte) : Byte := flagByte (!decide ((a.toNat : Int) - b.toNat < 0))

/-- The bit `8xy6` shifts out: bit 0 of the value about to be shifted (R98). -/
def shiftOutLow (a : Byte) : Byte := a &&& 1

/-- The bit `8xyE` shifts out: bit 7 of the value about to be shifted (R100). -/
def shiftOutHigh (a : Byte) : Byte := (a >>> 7) &&& 1

/-- What follows a logic operation: `VF <- 0` when `vf_reset_on_logic` (R93 to R95). -/
def logicVF (s : State) : State := if s.cfg.vfResetOnLogic then s.setVF 0 else s

end Sys2Proof.Machine
end

