-- ==== Sys2Proof/Machine/ArithLogic.lean ====
section
/-! DEFINITION. Machine/ArithLogic.lean: the arithmetic and logic group (41_arith_logic.md, R90 to R104). Each meaning
is the rule's assignments in the order written; with `x = 15` that order decides (R104). In every meaning `pc` already
holds the instruction's address plus 2 (R8). -/

namespace Sys2Proof.Machine

/-- `6xkk`: `V[x] <- kk` (R90). -/
def execLdImm (x : RegIdx) (kk : Byte) (s : State) : Host.Outcome State Fault Refusal := .next (s.setReg x kk)

/-- `7xkk`: `V[x] <- (V[x] + kk) & 0xFF`; VF is not written as a flag (R91). -/
def execAddImm (x : RegIdx) (kk : Byte) (s : State) : Host.Outcome State Fault Refusal :=
  .next (s.setReg x (BitVec.ofNat 8 ((s.reg x).toNat + kk.toNat)))

/-- `8xy0`: `V[x] <- V[y]` (R92). -/
def execLdReg (x y : RegIdx) (s : State) : Host.Outcome State Fault Refusal := .next (s.setReg x (s.reg y))

/-- `8xy1`: OR, then VF reset by the toggle (R93). -/
def execOr (x y : RegIdx) (s : State) : Host.Outcome State Fault Refusal :=
  .next (logicVF (s.setReg x (s.reg x ||| s.reg y)))

/-- `8xy2`: AND, then VF reset by the toggle (R94). -/
def execAnd (x y : RegIdx) (s : State) : Host.Outcome State Fault Refusal :=
  .next (logicVF (s.setReg x (s.reg x &&& s.reg y)))

/-- `8xy3`: XOR, then VF reset by the toggle (R95). -/
def execXor (x y : RegIdx) (s : State) : Host.Outcome State Fault Refusal :=
  .next (logicVF (s.setReg x (s.reg x ^^^ s.reg y)))

/-- `8xy4`: the sum first, the carry to VF last (R96, R104). -/
def execAdd (x y : RegIdx) (s : State) : Host.Outcome State Fault Refusal :=
  .next ((s.setReg x (BitVec.ofNat 8 ((s.reg x).toNat + (s.reg y).toNat))).setVF (carryFlag (s.reg x) (s.reg y)))

/-- `8xy5`: the difference `V[x] - V[y]` first, the not-borrow to VF last (R97, R104). -/
def execSub (x y : RegIdx) (s : State) : Host.Outcome State Fault Refusal :=
  .next ((s.setReg x (BitVec.ofInt 8 ((s.reg x).toNat - (s.reg y).toNat))).setVF
    (notBorrowFlag (s.reg x) (s.reg y)))

/-- `8xy7`: the difference `V[y] - V[x]` first, its not-borrow to VF last (R99, R104). -/
def execSubn (x y : RegIdx) (s : State) : Host.Outcome State Fault Refusal :=
  .next ((s.setReg x (BitVec.ofInt 8 ((s.reg y).toNat - (s.reg x).toNat))).setVF
    (notBorrowFlag (s.reg y) (s.reg x)))

/-- The last two lines of `8xy6`: the low bit to VF first, then `V[x] <- V[x] >> 1` (R98, R104). -/
def shiftRightStep (x : RegIdx) (s : State) : State :=
  let t := s.setVF (shiftOutLow (s.reg x))
  t.setReg x (t.reg x >>> 1)

/-- The last two lines of `8xyE`: the high bit to VF first, then `V[x] <- (V[x] << 1) & 0xFF` (R100, R104). -/
def shiftLeftStep (x : RegIdx) (s : State) : State :=
  let t := s.setVF (shiftOutHigh (s.reg x))
  t.setReg x (t.reg x <<< 1)

/-- `8xy6`: shift right (R98). -/
def execShr (x y : RegIdx) (s : State) : Host.Outcome State Fault Refusal :=
  .next (shiftRightStep x (shiftSource x y s))

/-- `8xyE`: shift left (R100). -/
def execShl (x y : RegIdx) (s : State) : Host.Outcome State Fault Refusal :=
  .next (shiftLeftStep x (shiftSource x y s))

/-- `Cxkk`: `V[x] <- Rand8() & kk`, one draw consumed (R101). -/
def execRnd (x : RegIdx) (kk : Byte) (s : State) : Host.Outcome State Fault Refusal :=
  .next (s.takeDraw.setReg x (s.nextDraw &&& kk))

end Sys2Proof.Machine
end

