-- ==== Sys2Proof/Machine/ControlFlow.lean ====
section
/-! DEFINITION. Machine/ControlFlow.lean: jump, call, return, offset jump and the no-op (40_control_flow.md, R80 to
R85; R65). -/

namespace Sys2Proof.Machine

/-- `00EE`: return (R81). -/
def execRet (s : State) : Host.Outcome State Fault Refusal := .next (popJump s)

/-- `1nnn`: `pc <- nnn` zero-extended (R82). -/
def execJp (nnn : BitVec 12) (s : State) : Host.Outcome State Fault Refusal := .next (s.setPc (zext16 nnn))

/-- `2nnn`: call; the pushed `pc` is this instruction's address plus 2 (R83). -/
def execCall (nnn : BitVec 12) (s : State) : Host.Outcome State Fault Refusal := .next (pushJump (zext16 nnn) s)

/-- `Bnnn`: `pc <- (nnn + V[sel]) & 0xFFF` (R84). -/
def execJpOff (nnn : BitVec 12) (s : State) : Host.Outcome State Fault Refusal :=
  .next (s.setPc (mask12 (nnn.toNat + (s.reg (jumpSelector s.cfg nnn)).toNat)))

/-- Any other word: no effect beyond the fetch increment, no diagnostic (R65, R80, R103, R117, R126). -/
def execNop (_w : Word) (s : State) : Host.Outcome State Fault Refusal := .next s

end Sys2Proof.Machine
end

