-- ==== Sys2Proof/Machine/Draw.lean ====
section
/-! DEFINITION. Machine/Draw.lean: the draw group and the collision detector (44_draw.md, R130 to R134). -/

namespace Sys2Proof.Machine

/-- `00E0`: every pixel 0; VF is not written (R130). -/
def execCls (s : State) : Host.Outcome State Fault Refusal := .next (s.setFb fbClear)

/-- The column a sprite column lands on: `x0 + col`, reduced modulo 64 when it passes the right edge, or dropped there
under `clip_sprites` (R131). -/
def drawColumn (clip : Bool) (x0 col : Nat) : Option (Fin 64) :=
  if 64 ≤ x0 + col ∧ clip = true then none else some (Fin.ofNat 64 (x0 + col))

/-- One sprite pixel: a bit of 0 leaves its pixel alone; a bit of 1 inverts it, and a pixel that was set collides
(R131, R132). The pair is the framebuffer and the collision so far. -/
def drawPixel (bit : Bool) (c : Fin 64) (r : Fin 32) (p : Framebuffer × Bool) : Framebuffer × Bool :=
  if bit then (fbSet p.1 c r (!fbGet p.1 c r), p.2 || fbGet p.1 c r) else p

/-- The column loop of one row, for the sprite byte `b`: column `col` is bit `7 - col` (R131). -/
def drawCols (clip : Bool) (b : Byte) (x0 : Nat) (r : Fin 32) : List Nat → Framebuffer × Bool → Framebuffer × Bool
  | [], p => p
  | col :: cols, p =>
    match drawColumn clip x0 col with
    | none => drawCols clip b x0 r cols p
    | some c => drawCols clip b x0 r cols (drawPixel (b.getLsbD (7 - col)) c r p)

/-- The eight sprite columns, left to right. -/
def spriteCols : List Nat := [0, 1, 2, 3, 4, 5, 6, 7]

/-- The row loop of `Dxyn`: a row at 32 or below ends the loop under `clip_sprites` and is dropped without a read
otherwise; any other row is read at `I + row` and its pixels XORed in (R131). The result is the state, with the
framebuffer drawn and the reads noted, and the collision. -/
def drawRows (x0 y0 : Nat) : List Nat → State → Bool → State × Bool
  | [], s, hit => (s, hit)
  | row :: rows, s, hit =>
    if h : y0 + row < 32 then
      let (b, t) := memRead (s.dataAddr row) s
      let (f, hit') := drawCols s.cfg.clipSprites b x0 ⟨y0 + row, h⟩ spriteCols (t.fb, hit)
      drawRows x0 y0 rows (t.setFb f) hit'
    else if s.cfg.clipSprites then (s, hit)
    else drawRows x0 y0 rows s hit

/-- `Dxyn`: both coordinates read and reduced before VF is written; VF is the collision, written once, last (R131,
R133). -/
def execDrw (x y : RegIdx) (n : BitVec 4) (s : State) : Host.Outcome State Fault Refusal :=
  let (t, hit) := drawRows ((s.reg x).toNat % 64) ((s.reg y).toNat % 32) (List.range n.toNat) s false
  .next (t.setVF (flagByte hit))

end Sys2Proof.Machine
end

