-- ==== Sys2Proof/Machine/MemoryGroup.lean ====
section
/-! DEFINITION. Machine/MemoryGroup.lean: the memory group (43_memory_ops.md, R120 to R127). -/

namespace Sys2Proof.Machine

/-- `Annn`: `I <- nnn` zero-extended (R120). -/
def execLdI (nnn : BitVec 12) (s : State) : Host.Outcome State Fault Refusal := .next (s.setI (zext16 nnn))

/-- `Fx1E`: `I <- (I + V[x]) & 0xFFF`; VF is not written (R121). -/
def execAddI (x : RegIdx) (s : State) : Host.Outcome State Fault Refusal :=
  .next (s.setI (mask12 (s.i.toNat + (s.reg x).toNat)))

/-- `Fx29`: `I <- 5 * (V[x] & 0xF)` (R122). -/
def execLdGlyph (x : RegIdx) (s : State) : Host.Outcome State Fault Refusal :=
  .next (s.setI (BitVec.ofNat 16 (5 * (lowNibble (s.reg x)).val)))

/-- The three decimal digits of a byte: hundreds, tens, units (R123). -/
def bcdDigits (v : Byte) : List Byte :=
  [BitVec.ofNat 8 (v.toNat / 100), BitVec.ofNat 8 (v.toNat / 10 % 10), BitVec.ofNat 8 (v.toNat % 10)]

/-- `Fx33`: the digits of `V[x]` to `I`, `I + 1`, `I + 2`; `I` unchanged (R123). -/
def execBcd (x : RegIdx) (s : State) : Host.Outcome State Fault Refusal :=
  .next (memWriteList (s.dataAddr 0) (bcdDigits (s.reg x)) s)

/-- The loop of `Fx55`: `MemWrite(I + i, 1, V[i])` for each register of the list, `I` unchanged inside (R124). -/
def dumpRegs : List RegIdx → State → State
  | [], s => s
  | r :: rs, s => dumpRegs rs (memWrite (s.dataAddr r.val) (s.reg r) s)

/-- `Fx55`: registers `0..x` to memory from `I` up, then the advance of `I` by the toggle (R124). -/
def execDump (x : RegIdx) (s : State) : Host.Outcome State Fault Refusal :=
  .next (advanceI x (dumpRegs (regsUpTo x) s))

/-- The loop of `Fx65`: `V[i] <- MemRead(I + i, 1)` for each register of the list, `I` unchanged inside (R125). -/
def loadRegs : List RegIdx → State → State
  | [], s => s
  | r :: rs, s => loadRegs rs ((memRead (s.dataAddr r.val) s).2.setReg r (memRead (s.dataAddr r.val) s).1)

/-- `Fx65`: registers `0..x` from memory from `I` up, then the advance of `I` by the toggle (R125). -/
def execLoad (x : RegIdx) (s : State) : Host.Outcome State Fault Refusal :=
  .next (advanceI x (loadRegs (regsUpTo x) s))

end Sys2Proof.Machine
end

