-- ==== Sys2Proof/Machine/Skip.lean ====
section
/-! DEFINITION. Machine/Skip.lean: the skip group (42_skip.md, R110 to R117). -/

namespace Sys2Proof.Machine

/-- `3xkk`: skip if `V[x] == kk` (R110). -/
def execSeImm (x : RegIdx) (kk : Byte) (s : State) : Host.Outcome State Fault Refusal :=
  .next (skipIf (s.reg x == kk) s)

/-- `4xkk`: skip if `V[x] != kk` (R111). -/
def execSneImm (x : RegIdx) (kk : Byte) (s : State) : Host.Outcome State Fault Refusal :=
  .next (skipIf (s.reg x != kk) s)

/-- `5xyn`: skip if `V[x] == V[y]`; the low nibble is not decoded (R112, R68). -/
def execSeReg (x y : RegIdx) (_n : BitVec 4) (s : State) : Host.Outcome State Fault Refusal :=
  .next (skipIf (s.reg x == s.reg y) s)

/-- `9xyn`: skip if `V[x] != V[y]`; the low nibble is not decoded (R113, R68). -/
def execSneReg (x y : RegIdx) (_n : BitVec 4) (s : State) : Host.Outcome State Fault Refusal :=
  .next (skipIf (s.reg x != s.reg y) s)

/-- `Ex9E`: skip if key `V[x] & 0xF` is held in this frame (R114). -/
def execSkp (x : RegIdx) (s : State) : Host.Outcome State Fault Refusal :=
  .next (skipIf (keyHeld s.keys (s.keyOperand x)) s)

/-- `ExA1`: skip if key `V[x] & 0xF` is not held in this frame (R115). -/
def execSknp (x : RegIdx) (s : State) : Host.Outcome State Fault Refusal :=
  .next (skipIf (!keyHeld s.keys (s.keyOperand x)) s)

end Sys2Proof.Machine
end

