-- ==== Sys2Proof/Machine/TimerKey.lean ====
section
/-! DEFINITION. Machine/TimerKey.lean: the timer and key group (45_timer_key.md, R140 to R143). -/

namespace Sys2Proof.Machine

/-- `Fx07`: `V[x] <- DT` (R140). -/
def execLdDt (x : RegIdx) (s : State) : Host.Outcome State Fault Refusal := .next (s.setReg x s.dt)

/-- `Fx15`: `DT <- V[x]` (R141). -/
def execSetDt (x : RegIdx) (s : State) : Host.Outcome State Fault Refusal := .next (s.setDt (s.reg x))

/-- `Fx18`: `ST <- V[x]`; `sound_enable` is not changed (R142). -/
def execSetSt (x : RegIdx) (s : State) : Host.Outcome State Fault Refusal := .next (s.setSt (s.reg x))

/-- `Fx0A`: enter AwaitingKey, record the target, clear the observed set; `V[x]` is written later, by `KeyService`
(R143). -/
def execLdKey (x : RegIdx) (s : State) : Host.Outcome State Fault Refusal :=
  .next (((s.setKeyWaiting true).setKeyTarget x).setKeysObserved 0)

end Sys2Proof.Machine
end

