-- ==== Sys2Proof/Machine/Frame.lean ====
section
/-! DEFINITION. Machine/Frame.lean: `Step()` (R60, R74), `KeyService` (R165), `Tick` (R160), `Frame` (R170, R171), and
the pieces of `Frame` that the machine's `step` runs one at a time. -/

namespace Sys2Proof.Machine

/-! ## `Step()` (R60) -/

/-- `Step()`: nothing while `key_waiting` (R74), else fetch, advance `pc`, execute the decoded instruction. -/
def cpuStep (s : State) : Host.Outcome State Fault Refusal :=
  if s.keyWaiting then .next s else exec (decode s.fetchWord) s.afterFetch

/-! ## `KeyService(keys)` (R165) -/

/-- The scan of R165 over the keys in the order given: the observed set after it, and the key delivered, if any. A key
held now is marked observed; the first key observed earlier and not held now is delivered and ends the scan. -/
def scanKeys (keys : Keys) : List (Fin 16) → Keys → Keys × Option (Fin 16)
  | [], obs => (obs, none)
  | k :: ks, obs =>
    if keyHeld keys k then scanKeys keys ks (obs ||| (1#16 <<< k.val))
    else if keyHeld obs k then (obs, some k)
    else scanKeys keys ks obs

/-- `KeyService(keys)` of R165: ascending scan; a delivered key goes to `V[key_target_register]` and ends the wait. -/
def keyService (keys : Keys) (s : State) : State :=
  if s.keyWaiting then
    match scanKeys keys allRegs s.keysObserved with
    | (obs, none) => s.setKeysObserved obs
    | (obs, some k) =>
      ((s.setKeysObserved obs).setReg s.keyTarget (BitVec.ofNat 8 k.val)).setKeyWaiting false
  else s

/-! ## `Tick()` (R160) -/

/-- One count down, floored at 0 (R18, R19). -/
def countDown (b : Byte) : Byte := if 0 < b.toNat then b - 1 else b

/-- `Tick()`: the sound output from `ST` before this tick's decrement, then both timers (R160). -/
def tick (s : State) : State :=
  ((s.setSoundEnable (decide (0 < s.st.toNat))).setDt (countDown s.dt)).setSt (countDown s.st)

/-! ## `Frame(keys)` (R170) -/

/-- `NextIsDraw()`: the top nibble of the byte at `pc` is 0xD; no diagnostic (R171). -/
def nextIsDraw (s : State) : Bool := (s.peek s.pc.toNat).extractLsb' 4 4 == 0xD#4

/-- The instruction loop ends: budget spent, `Fx0A` has run, or a draw that is not the frame's first instruction is
next under `halt_before_draw` (R170). -/
def loopEnds (ran left : Nat) (s : State) : Bool :=
  match left with
  | 0 => true
  | _ + 1 => s.keyWaiting || (decide (1 ≤ ran) && (s.cfg.haltBeforeDraw && nextIsDraw s))

/-- The loop of R170 with `left` instructions of the budget to go. -/
def frameLoop : Nat → Nat → State → Host.Outcome State Fault Refusal
  | 0, _, s => .next s
  | left + 1, ran, s =>
    if loopEnds ran (left + 1) s then .next s
    else
      match cpuStep s with
      | .next t => frameLoop left (ran + 1) t
      | .fault r => .fault r
      | .refused r => .refused r

/-- `Frame(keys)` of R170: key service or the instruction loop, chosen once, then always one tick. -/
def frame (keys : Keys) (s : State) : Host.Outcome State Fault Refusal :=
  if s.keyWaiting then .next (tick (keyService keys (s.setKeys keys)))
  else
    match frameLoop s.cfg.instructionsPerFrame 0 (s.setKeys keys) with
    | .next t => .next (tick t)
    | .fault r => .fault r
    | .refused r => .refused r

/-! ## The pieces of `Frame` that `step` runs -/

/-- Begin a frame: take its key levels; serve the key wait, or enter the instruction loop with the whole budget. -/
def beginFrame (s : State) : State :=
  if s.keyWaiting then (keyService s.nextKeys s.takeKeys).setPhase .tickDue
  else s.takeKeys.setPhase (.running 0 s.cfg.instructionsPerFrame)

/-- Leave the instruction loop. -/
def exitLoop (s : State) : State := s.setPhase .tickDue

/-- Count the instruction about to run: R170's `count <- count + 1`. -/
def countInstr (ran left : Nat) (s : State) : State := s.setPhase (.running (ran + 1) (left - 1))

/-- End the frame with its one tick. -/
def endFrame (s : State) : State := (tick s).setPhase .frameStart

/-! ## Placing an instruction where the next step fetches it -/

/-- Where the next instruction is placed: at `pc`, or at 0x200 when the two bytes at `pc` do not both exist. -/
def placeAddr (s : State) : Nat := if s.pc.toNat + 1 < memSize then s.pc.toNat else loadOrigin

/-- The word stored big-endian at `placeAddr`, `pc` there, the machine Running and inside the loop of a frame with its
budget (at least one), nothing run yet: so that the very next step fetches and runs the word. -/
def placeInstr (w : Word) (s : State) : State :=
  ((memWriteList (placeAddr s) (bytesOfWord w) (s.setPc (BitVec.ofNat 16 (placeAddr s)))).setKeyWaiting false).setPhase
    (.running 0 (s.cfg.instructionsPerFrame - 1 + 1))

end Sys2Proof.Machine
end

