-- ==== Sys2Proof/Machine/Step.lean ====
section
/-! DEFINITION. Machine/Step.lean: one step of the machine: one operation of the frame protocol of R170. -/

namespace Sys2Proof.Machine

/-- One step: begin a frame, or leave the instruction loop, or run one instruction (`Step()`), or the frame's tick. -/
def step (s : State) : Host.Outcome State Fault Refusal :=
  match s.phase with
  | .frameStart => .next (beginFrame s)
  | .running ran left =>
    if loopEnds ran left s then .next (exitLoop s) else cpuStep (countInstr ran left s)
  | .tickDue => .next (endFrame s)

/-- `s` with an instruction of `nbits` bits whose bits are `w` stored where `step` fetches its next instruction
(every instruction has 16 bits, R60; the bits above `nbits` are 0). Log entry 17. -/
def State.withFetchWord (s : State) (nbits w : Nat) : State := placeInstr (BitVec.ofNat 16 (w % 2 ^ nbits)) s

end Sys2Proof.Machine
end

