-- ==== Sys2Proof/Safety.lean ====
section
/-! DEFINITION. Safety.lean: what holds in every state the machine can reach, and what it is for a run to go on. -/

namespace Sys2Proof.Machine

/-- The place in the frame agrees with the budget: inside the loop, what has run and what is left make the budget
(R170, R172); an instruction loop that has run nothing is entered only by a machine that is Running (R170). -/
def State.phaseOk (s : State) : Prop :=
  match s.phase with
  | .running ran left => ran + left = s.cfg.instructionsPerFrame ∧ (s.keyWaiting = true → 0 < ran)
  | .frameStart => True
  | .tickDue => True

/-- The invariant of the machine: memory in its canonical form, `I` below 4096 (R17), slot 15 of the stack never
written (R21), the frame's bookkeeping right (R170). -/
structure State.Inv (s : State) : Prop where
  memWf : Memory.wf s.cfg.font s.mem
  iBound : s.i.toNat < 4096
  topSlot : s.stack[15] = 0
  phaseOk : s.phaseOk

/-- `k` steps from `s`, each answering a next state, end in `t`: what a run of the machine that has not stopped is
(R189). -/
def RunsTo : Nat → State → State → Prop
  | 0, s, t => s = t
  | k + 1, s, u => ∃ t, step s = .next t ∧ RunsTo k t u

end Sys2Proof.Machine
end

