-- ==== Sys2Proof/Certificates/Slice0/Obligations.lean ====
section
/-! DEFINITION. Certificates/Slice0/Obligations.lean: the statements for the provers, from the numbered rules of spec/.
A result statement has the form: for every state and every operand, `exec` answers a next state, with the values the
rule gives, and the rest of the state equal to what it was (`t = { s with … }`), every byte of memory outside the
stored ones reading as before. -/

open Sys2Proof Sys2Proof.Machine

namespace Sys2Proof.Claims

/-- The instruction changes registers only, and every byte of memory reads as before. -/
def OnlyRegs (s t : State) : Prop := t = { s with v := t.v } ∧ ∀ a, t.peek a = s.peek a

/-- The instruction changes `pc` only, and every byte of memory reads as before. -/
def OnlyPc (s t : State) : Prop := t = { s with pc := t.pc } ∧ ∀ a, t.peek a = s.peek a

/-- The instruction changes `I` only, and every byte of memory reads as before. -/
def OnlyI (s t : State) : Prop := t = { s with i := t.i } ∧ ∀ a, t.peek a = s.peek a

/-- Every register but the destination `x` is unchanged. -/
def RegsExcept (x : RegIdx) (s t : State) : Prop := ∀ r, r ≠ x → t.reg r = s.reg r

/-- Every register but the destination `x` and VF is unchanged. -/
def RegsExceptVF (x : RegIdx) (s t : State) : Prop := ∀ r, r ≠ x → r ≠ 15 → t.reg r = s.reg r

/-- The value the shifts of R98 and R100 are about to shift. -/
def shiftOperand (x y : RegIdx) (s : State) : Nat :=
  if s.cfg.shiftUsesVy then (s.reg y).toNat else (s.reg x).toNat

/-- Pixel (row `r`, column `c`) is under a set bit of the sprite of `Dxyn` (R131): some row `row` of the `n` lands on
`r` (rows are never wrapped), and some column `col` of the eight lands on `c` (wrapped modulo 64 unless clipping). -/
def SpriteCovers (x y : RegIdx) (n : BitVec 4) (s : State) (c : Fin 64) (r : Fin 32) : Prop :=
  ∃ row col : Nat, row < n.toNat ∧ col < 8 ∧ r.val = (s.reg y).toNat % 32 + row ∧
    (if s.cfg.clipSprites then c.val = (s.reg x).toNat % 64 + col
     else c.val = ((s.reg x).toNat % 64 + col) % 64) ∧
    (s.peek (s.dataAddr row)).getLsbD (7 - col) = true

/-- A nest of calls, one `2nnn` after another. -/
def calls : List (BitVec 12) → State → Host.Outcome State Fault Refusal
  | [], s => .next s
  | nnn :: rest, s =>
    match exec (.call nnn) s with
    | .next t => calls rest t
    | .fault r => .fault r
    | .refused r => .refused r

/-- The instruction is one that writes VF as a flag under this configuration (R34). -/
def writesFlag (cfg : Config) : Instr → Bool
  | .orReg _ _ | .andReg _ _ | .xorReg _ _ => cfg.vfResetOnLogic
  | .addReg _ _ | .subReg _ _ | .subnReg _ _ | .shrReg _ _ | .shlReg _ _ | .drw _ _ _ => true
  | _ => false

/-- The `x` field of an instruction that writes `V[x]` as its destination (`Fx65` writes `V[0..x]`, so `V[15]` only
when `x` is 15). -/
def destination : Instr → Option RegIdx
  | .ldImm x _ | .addImm x _ | .ldReg x _ | .orReg x _ | .andReg x _ | .xorReg x _ | .addReg x _ | .subReg x _
  | .shrReg x _ | .subnReg x _ | .shlReg x _ | .rnd x _ | .ldDt x | .load x => some x
  | _ => none

/-- The instructions that may change `pc` beyond the fetch increment (R15). -/
def writesPc : Instr → Bool
  | .ret | .jp _ | .call _ | .jpOff _ | .seImm _ _ | .sneImm _ _ | .seReg _ _ _ | .sneReg _ _ _ | .skp _
  | .sknp _ => true
  | _ => false

/-- The instructions that write `I` under this configuration (R16). -/
def writesI (cfg : Config) : Instr → Bool
  | .ldI _ | .addI _ | .ldGlyph _ => true
  | .dump _ | .load _ => cfg.memoryIncrementsI
  | _ => false

/-- The instructions that may record a diagnostic while they execute (R151). -/
def mayRecord : Instr → Bool
  | .ret | .call _ | .drw _ _ _ | .bcd _ | .dump _ | .load _ => true
  | _ => false

/-- What a program cannot read (R33): the sound timer and output, the key-wait registers, the diagnostics. -/
def hideUnreadable (s : State) : State :=
  { s with st := 0, soundEnable := false, keyWaiting := false, keyTarget := 0, keysObserved := 0, diags := [] }

/-- The byte at `pc` of the next fetch, bits 15:8 of the word (R44). -/
def fetchedHigh (s : State) : Byte := s.fetchWord.extractLsb' 8 8

/-- The byte at `pc + 1` of the next fetch, bits 7:0 of the word (R44). -/
def fetchedLow (s : State) : Byte := s.fetchWord.extractLsb' 0 8

/-- The state is inside the instruction loop of a frame and the loop does not end here, so the next step is an
instruction. -/
def AboutToRun (s : State) (ran left : Nat) : Prop :=
  s.phase = .running ran left ∧ 0 < left ∧ s.keyWaiting = false ∧
    ¬ (1 ≤ ran ∧ s.cfg.haltBeforeDraw = true ∧ (s.peek s.pc.toNat).toNat / 16 = 0xD)

end Sys2Proof.Claims

open Sys2Proof.Claims

/-! ## Encoding -/

/-- R61, R64, R66: words written out bit by bit from the encodings of the table, at least one of each of the sixteen
families. Most patterns of R66 are the spec's general knowledge (GK2, log entry 16); that family 5 ignores its low
nibble is its decision D10 (log entry 7). -/
def Obligations.DecodeOfSampleWords : Prop :=
  decode 0b0000000011100000#16 = .cls ∧ decode 0b0000000011101110#16 = .ret ∧
  decode 0b0001101010111100#16 = .jp 0xABC ∧ decode 0b0010001000010000#16 = .call 0x210 ∧
  decode 0b0011000101000010#16 = .seImm 1 0x42 ∧ decode 0b0100001000010001#16 = .sneImm 2 0x11 ∧
  decode 0b0101000100101111#16 = .seReg 1 2 15 ∧ decode 0b0110101001111111#16 = .ldImm 10 0x7F ∧
  decode 0b0111000011111110#16 = .addImm 0 0xFE ∧ decode 0b1000101001010110#16 = .shrReg 10 5 ∧
  decode 0b1000101001011000#16 = .nop 0x8A58 ∧ decode 0b1001111100010000#16 = .sneReg 15 1 0 ∧
  decode 0b1010001100001100#16 = .ldI 0x30C ∧ decode 0b1011001100000001#16 = .jpOff 0x301 ∧
  decode 0b1100001100001111#16 = .rnd 3 0x0F ∧
  decode 0b1101000100100101#16 = .drw 1 2 5 ∧ decode 0b1110001110011110#16 = .skp 3 ∧
  decode 0b1111011100110011#16 = .bcd 7 ∧ decode 0b1111011101110101#16 = .nop 0xF775

/-- Every well-formed instruction is what its word decodes to. -/
def Obligations.DecodeOfEncode : Prop := ∀ i : Instr, i.wf = true → decode (encode i) = i

/-- R73, R66: every word decodes, to a well-formed instruction whose word it is; no bit is dropped. -/
def Obligations.EncodeOfDecode : Prop := ∀ w : Word, (decode w).wf = true ∧ encode (decode w) = w

/-- R66: the decoder picks the first row of the table that selects the word, rows tried top to bottom. The map holds
the spec's own choices for families 0, 5 and 9 (D9, D10, log entry 7) and its general knowledge (GK2, log entry 16). -/
def Obligations.DecodePicksFirstRow : Prop := ∀ w : Word, (decode w).row = firstRow w

/-- R66's rows do not overlap: a word is selected by at most one of the 34 rows before the last. -/
def Obligations.OpcodeRowsDoNotOverlap : Prop :=
  ∀ (w : Word) (j k : Nat) (r q : OpRow), opRows[j]? = some r → opRows[k]? = some q →
    r.selects w = true → q.selects w = true → j = k

/-- R65, R66, R67, R69, R70: the words that reach the last row are exactly these, and each executes as a no-op: the
fetch increment aside, nothing changes and no diagnostic is recorded. Which words of families 8, E and F are
recognised is in part the spec's general knowledge (8xy0, Ex9E, ExA1, Fx07, Fx15, Fx18, Fx1E: GK2, log entry 16),
its list of the no-op words is the spec's own inference (R66), and that family 0 matches the whole word is its
decision D9 (log entry 7). -/
def Obligations.UnrecognisedWordsAreNoOps : Prop :=
  ∀ w : Word,
    (decode w = .nop w ↔
      ((fieldOp w = 0x0 ∧ fieldNnn w ≠ 0x0E0 ∧ fieldNnn w ≠ 0x0EE) ∨
       (fieldOp w = 0x8 ∧ (fieldN w).toNat ∈ [0x8, 0x9, 0xA, 0xB, 0xC, 0xD, 0xF]) ∨
       (fieldOp w = 0xE ∧ (fieldKk w).toNat ∉ [0x9E, 0xA1]) ∨
       (fieldOp w = 0xF ∧ (fieldKk w).toNat ∉ [0x07, 0x0A, 0x15, 0x18, 0x1E, 0x29, 0x33, 0x55, 0x65]))) ∧
    (recognised w = false → decode w = .nop w ∧ ∀ s : State, exec (.nop w) s = .next s)

/-- R68: in families 5 and 9 the low nibble of the word changes nothing. The spec's decision D10 (log entry 7). -/
def Obligations.Families5And9IgnoreLowNibble : Prop :=
  ∀ (w u : Word) (s : State), (fieldOp w = 0x5 ∨ fieldOp w = 0x9) → fieldOp u = fieldOp w →
    fieldX u = fieldX w → fieldY u = fieldY w → exec (decode u) s = exec (decode w) s

/-! ## The step -/

/-- R60, R44, R14: in a state about to run an instruction, when the two bytes at `pc`, combined big-endian, are the
word of a well-formed instruction, `step` is `exec` of it in the state after the fetch: `pc` advanced by 2 modulo
65536, one `MEM_READ_OOR` for each fetched byte out of range, the instruction counted in the frame. That a step is one
instruction of a frame is the model's choice (log entry 2); the modulus is the spec's decision D5 (log entry 8). -/
def Obligations.StepRunsDecodedInstruction : Prop :=
  ∀ (i : Instr) (s : State) (ran left : Nat), i.wf = true → AboutToRun s ran left →
    encode i = s.peek s.pc.toNat ++ s.peek (s.pc.toNat + 1) →
    ∃ u, Machine.step s = exec i u ∧
      u.pc.toNat = (s.pc.toNat + 2) % 65536 ∧
      u.phase = .running (ran + 1) (left - 1) ∧
      u.diags = List.replicate (min 2 (s.pc.toNat + 2 - 4096)) .memReadOor ++ s.diags ∧
      u = { s with pc := u.pc, phase := u.phase, diags := u.diags }

/-- The word placed by `withFetchWord` is what the very next step runs, from every state. withFetchWord is the model's
own (log entry 17). -/
def Obligations.PlacedWordIsRunNext : Prop :=
  ∀ (s : State) (w : Word), Memory.wf s.cfg.font s.mem →
    ∃ u, Machine.step (s.withFetchWord 16 w.toNat) = exec (decode w) u ∧ u.v = s.v ∧ u.i = s.i ∧
      u.stack = s.stack ∧ u.sp = s.sp ∧ u.fb = s.fb ∧ u.cfg = s.cfg ∧ u.keyWaiting = false

/-- R60, R74: `Step()` while `key_waiting` reads nothing and changes nothing; otherwise it is the fetch, big-endian,
the increment modulo 65536, and the execution of the decoded word. The modulus is the spec's decision D5 (log entry
8). -/
def Obligations.StepFunctionOfR60 : Prop :=
  ∀ s : State,
    (s.keyWaiting = true → cpuStep s = .next s) ∧
    (s.keyWaiting = false → ∃ u, cpuStep s = exec (decode (s.peek s.pc.toNat ++ s.peek (s.pc.toNat + 1))) u ∧
      u.pc.toNat = (s.pc.toNat + 2) % 65536 ∧
      u.diags = List.replicate (min 2 (s.pc.toNat + 2 - 4096)) .memReadOor ++ s.diags ∧
      u = { s with pc := u.pc, diags := u.diags })

/-- R150, R156, R159: every instruction completes in every state: no fault, no refusal, no trap. -/
def Obligations.EveryInstructionCompletes : Prop := ∀ (i : Instr) (s : State), ∃ t, exec i s = .next t

/-- R150, R189: the machine never stops: from every state, every number of steps gives a state. What a step is, is
the model's choice (log entry 2). -/
def Obligations.MachineNeverStops : Prop := ∀ (s : State) (k : Nat), ∃ t, RunsTo k s t

/-- R29: no step changes the configuration. -/
def Obligations.ConfigurationNeverChanges : Prop :=
  ∀ (s t : State) (k : Nat), RunsTo k s t → t.cfg = s.cfg

/-! ## Which instructions write which piece of state (whole-machine rules) -/

/-- R10, R15, R16, R18 to R20, R23 to R25, R28, R29, R31, R34, R41, R134: each piece of state is changed only by its
writers. That Fx18 leaves sound_enable is the spec's decision D26 and that 7xkk, Fx1E and 00E0 write no flag its D27
and general knowledge (log entry 16); the draw inputs (log entry 4), the key inputs (log entry 3) and the place in
the frame (log entry 2) are the model's own fields. -/
def Obligations.EachPieceOfStateHasItsWriters : Prop :=
  ∀ (i : Instr) (s t : State), exec i s = .next t →
    (destination i = none → writesFlag s.cfg i = false → t.v = s.v) ∧
    (writesPc i = false → t.pc = s.pc) ∧
    (writesI s.cfg i = false → t.i = s.i) ∧
    ((∀ x, i ≠ .setDt x) → t.dt = s.dt) ∧
    ((∀ x, i ≠ .setSt x) → t.st = s.st) ∧
    ((∀ nnn, i ≠ .call nnn) → t.stack = s.stack ∧ (i ≠ .ret → t.sp = s.sp)) ∧
    ((∀ x, i ≠ .bcd x ∧ i ≠ .dump x) → ∀ a, t.peek a = s.peek a) ∧
    (i ≠ .cls → (∀ x y n, i ≠ .drw x y n) → t.fb = s.fb) ∧
    ((∀ x, i ≠ .ldKey x) →
      t.keyWaiting = s.keyWaiting ∧ t.keyTarget = s.keyTarget ∧ t.keysObserved = s.keysObserved) ∧
    (mayRecord i = false → t.diags = s.diags) ∧
    ((∀ x kk, i ≠ .rnd x kk) → t.drawInputs = s.drawInputs ∧ t.drawNo = s.drawNo) ∧
    t.soundEnable = s.soundEnable ∧ t.cfg = s.cfg ∧ t.keys = s.keys ∧ t.phase = s.phase ∧
    t.keyInputs = s.keyInputs ∧ t.frameNo = s.frameNo

/-- R34: an instruction that is no flag writer under the configuration, and does not write `V[x]` with `x = 15`,
leaves VF. That 7xkk, Fx1E and 00E0 leave VF is the spec's general knowledge (D27, GK2, log entry 16). -/
def Obligations.OnlyFlagWritersChangeVF : Prop :=
  ∀ (i : Instr) (s t : State), exec i s = .next t → writesFlag s.cfg i = false → destination i ≠ some 15 →
    t.reg 15 = s.reg 15

/-- R33: what a program cannot read cannot influence what it can: two states that agree but for the sound timer and
output, the key-wait registers and the diagnostics agree so again after any instruction. R33 is the spec's own
inference. -/
def Obligations.UnreadableStateDoesNotLeak : Prop :=
  ∀ (i : Instr) (s s' t t' : State), hideUnreadable s = hideUnreadable s' →
    exec i s = .next t → exec i s' = .next t' → hideUnreadable t = hideUnreadable t'

/-! ## Control flow -/

/-- R82: `1nnn` goes to `nnn`. R82 is the spec's general knowledge (GK2, log entry 16). -/
def Obligations.JumpGoesToTarget : Prop :=
  ∀ (nnn : BitVec 12) (s : State), ∃ t, exec (.jp nnn) s = .next t ∧ t.pc.toNat = nnn.toNat ∧ OnlyPc s t

/-- R84: `Bnnn` goes to `(nnn + V[sel]) & 0xFFF`, `sel` the field `x` of the word under `jump_uses_vx`, else 0. That
the selector is the field x is the spec's reading C4. -/
def Obligations.OffsetJumpAddsSelectedRegister : Prop :=
  ∀ (w : Word) (s : State), fieldOp w = 0xB →
    ∃ t, exec (decode w) s = .next t ∧ OnlyPc s t ∧
      t.pc.toNat =
        ((fieldNnn w).toNat + (s.reg (if s.cfg.jumpUsesVx then fieldX w else 0)).toNat) % 4096

/-- R83, R154: an accepted call pushes `pc`, which is the call's address plus 2, and jumps; at `sp == 15` it records
`STACK_OVERFLOW` and changes nothing else. The depth 15 is the spec's decision D4 (C2, log entry 13). -/
def Obligations.CallPushesOrIsIgnored : Prop :=
  ∀ (nnn : BitVec 12) (s : State), ∃ t, exec (.call nnn) s = .next t ∧ (∀ a, t.peek a = s.peek a) ∧
    (s.sp ≠ 15 →
      t.stack[s.sp.val] = s.pc ∧ (∀ k : Fin 16, k ≠ s.sp → t.stack[k.val] = s.stack[k.val]) ∧
      t.sp.val = s.sp.val + 1 ∧ t.pc.toNat = nnn.toNat ∧
      t = { s with stack := t.stack, sp := t.sp, pc := t.pc }) ∧
    (s.sp = 15 → t = { s with diags := .stackOverflow :: s.diags })

/-- R81, R155: a return pops all 16 bits into `pc` and leaves the slot's content; at `sp == 0` it records
`STACK_UNDERFLOW` and changes nothing else. -/
def Obligations.ReturnPopsOrIsIgnored : Prop :=
  ∀ s : State, ∃ t, exec .ret s = .next t ∧ (∀ a, t.peek a = s.peek a) ∧
    (∀ k : Fin 16, s.sp.val = k.val + 1 →
      t.sp = k ∧ t.pc = s.stack[k.val] ∧ t = { s with sp := t.sp, pc := t.pc }) ∧
    (s.sp = 0 → t = { s with diags := .stackUnderflow :: s.diags })

/-- R81, R83: a return after an accepted call, the stack untouched between them, comes back to the instruction after
the call, at the depth before it. -/
def Obligations.ReturnUndoesCall : Prop :=
  ∀ (nnn : BitVec 12) (s t u : State), s.sp ≠ 15 → exec (.call nnn) s = .next t →
    u.stack = t.stack → u.sp = t.sp →
    ∃ v, exec .ret u = .next v ∧ v.pc = s.pc ∧ v.sp = s.sp ∧ v.stack = u.stack

/-- R83, R186(a): from an empty stack fifteen nested calls are accepted and every further one is ignored with one
`STACK_OVERFLOW`. The depth 15 is the spec's decision D4 (C2, log entry 13). -/
def Obligations.FifteenNestedCallsAreAccepted : Prop :=
  ∀ (targets : List (BitVec 12)) (s : State), s.sp = 0 →
    ∃ t, calls targets s = .next t ∧ t.sp.val = min 15 targets.length ∧
      t.diags = List.replicate (targets.length - 15) .stackOverflow ++ s.diags ∧ t.stack[15] = s.stack[15]

/-- R189: a jump to itself, in range, leaves every piece of state as it is, the frame's count aside. What 1nnn means
is the spec's general knowledge (GK2, log entry 16), the idle jump its decision D25; the count is the model's own
field (log entry 2). -/
def Obligations.SelfJumpIsIdle : Prop :=
  ∀ (s : State) (nnn : BitVec 12) (ran left : Nat), AboutToRun s ran left → s.pc.toNat = nnn.toNat →
    nnn.toNat + 1 < 4096 → encode (.jp nnn) = s.peek s.pc.toNat ++ s.peek (s.pc.toNat + 1) →
    Machine.step s = .next { s with phase := .running (ran + 1) (left - 1) }

/-! ## Arithmetic and logic -/

/-- R90, R92, R140: `6xkk`, `8xy0` and `Fx07` write `kk`, `V[y]` and `DT` to `V[x]`, and nothing else. The three rules
are the spec's general knowledge (GK2, log entry 16). -/
def Obligations.LoadsWriteOneRegister : Prop :=
  ∀ (x y : RegIdx) (kk : Byte) (s : State),
    (∃ t, exec (.ldImm x kk) s = .next t ∧ t.reg x = kk ∧ RegsExcept x s t ∧ OnlyRegs s t) ∧
    (∃ t, exec (.ldReg x y) s = .next t ∧ t.reg x = s.reg y ∧ RegsExcept x s t ∧ OnlyRegs s t) ∧
    (∃ t, exec (.ldDt x) s = .next t ∧ t.reg x = s.dt ∧ RegsExcept x s t ∧ OnlyRegs s t)

/-- R91: `7xkk` adds modulo 256 and reports no carry: VF is unchanged unless it is the destination. R91 is the spec's
general knowledge (GK2, D27, log entry 16). -/
def Obligations.AddImmediateWrapsSilently : Prop :=
  ∀ (x : RegIdx) (kk : Byte) (s : State), ∃ t, exec (.addImm x kk) s = .next t ∧
    (t.reg x).toNat = ((s.reg x).toNat + kk.toNat) % 256 ∧ RegsExcept x s t ∧ OnlyRegs s t

/-- R93, R94, R95, R104: OR, AND and XOR, bit by bit; then VF is 0 under `vf_reset_on_logic`, also when `x = 15`, and
otherwise left unless it is the destination. -/
def Obligations.LogicCombinesAndResetsVF : Prop :=
  ∀ (x y : RegIdx) (s : State),
    ∃ o a e, exec (.orReg x y) s = .next o ∧ exec (.andReg x y) s = .next a ∧ exec (.xorReg x y) s = .next e ∧
      (¬ (s.cfg.vfResetOnLogic = true ∧ x = 15) → ∀ k < 8,
        (o.reg x).getLsbD k = ((s.reg x).getLsbD k || (s.reg y).getLsbD k) ∧
        (a.reg x).getLsbD k = ((s.reg x).getLsbD k && (s.reg y).getLsbD k) ∧
        (e.reg x).getLsbD k = ((s.reg x).getLsbD k ^^ (s.reg y).getLsbD k)) ∧
      ∀ t ∈ [o, a, e], RegsExceptVF x s t ∧ OnlyRegs s t ∧ (s.cfg.vfResetOnLogic = true → t.reg 15 = 0) ∧
        (s.cfg.vfResetOnLogic = false → x ≠ 15 → t.reg 15 = s.reg 15)

/-- R96: `8xy4` writes the sum modulo 256 and then the carry to VF; with `x = 15` VF ends as the carry. -/
def Obligations.AddWritesSumThenCarry : Prop :=
  ∀ (x y : RegIdx) (s : State), ∃ t, exec (.addReg x y) s = .next t ∧
    (x ≠ 15 → (t.reg x).toNat = ((s.reg x).toNat + (s.reg y).toNat) % 256) ∧
    (t.reg 15).toNat = (if 256 ≤ (s.reg x).toNat + (s.reg y).toNat then 1 else 0) ∧
    RegsExceptVF x s t ∧ OnlyRegs s t

/-- R97, R99: `8xy5` and `8xy7` write the difference modulo 256 and then the not-borrow to VF; with `x = 15` VF ends
as the not-borrow. -/
def Obligations.SubtractsWriteDifferenceThenNotBorrow : Prop :=
  ∀ (x y : RegIdx) (s : State),
    (∃ t, exec (.subReg x y) s = .next t ∧
      (x ≠ 15 → (t.reg x).toNat = (256 + (s.reg x).toNat - (s.reg y).toNat) % 256) ∧
      (t.reg 15).toNat = (if (s.reg x).toNat < (s.reg y).toNat then 0 else 1) ∧
      RegsExceptVF x s t ∧ OnlyRegs s t) ∧
    (∃ t, exec (.subnReg x y) s = .next t ∧
      (x ≠ 15 → (t.reg x).toNat = (256 + (s.reg y).toNat - (s.reg x).toNat) % 256) ∧
      (t.reg 15).toNat = (if (s.reg y).toNat < (s.reg x).toNat then 0 else 1) ∧
      RegsExceptVF x s t ∧ OnlyRegs s t)

/-- R98, R100: the shifts move the operand by one bit and write the bit shifted out to VF; with `x = 15` the shift
acts on the flag just written. The clauses for x = 15 rest on the spec's decision D11 (log entry 9). -/
def Obligations.ShiftsWriteFlagThenShift : Prop :=
  ∀ (x y : RegIdx) (s : State),
    (∃ t, exec (.shrReg x y) s = .next t ∧
      (x ≠ 15 → (t.reg x).toNat = shiftOperand x y s / 2 ∧ (t.reg 15).toNat = shiftOperand x y s % 2) ∧
      (x = 15 → t.reg 15 = 0) ∧ RegsExceptVF x s t ∧ OnlyRegs s t) ∧
    (∃ t, exec (.shlReg x y) s = .next t ∧
      (x ≠ 15 → (t.reg x).toNat = shiftOperand x y s * 2 % 256 ∧
        (t.reg 15).toNat = shiftOperand x y s / 128) ∧
      (x = 15 → (t.reg 15).toNat = if 128 ≤ shiftOperand x y s then 2 else 0) ∧
      RegsExceptVF x s t ∧ OnlyRegs s t)

/-- R101: `Cxkk` writes one draw masked by `kk`, whatever the draw, and consumes that one draw; the last clause is for
a draw the host has committed to. That a draw is free, and the list of committed draws, are log entry 4. -/
def Obligations.RandomWritesMaskedDraw : Prop :=
  ∀ (x : RegIdx) (kk : Byte) (s : State), ∃ t, exec (.rnd x kk) s = .next t ∧
    (∃ draw : Byte, ∀ k < 8, (t.reg x).getLsbD k = (draw.getLsbD k && kk.getLsbD k)) ∧
    RegsExcept x s t ∧ (∀ a, t.peek a = s.peek a) ∧
    t = { s with v := t.v, drawInputs := s.drawInputs.tail, drawNo := s.drawNo + 1 } ∧
    (∀ draw rest, s.drawInputs = draw :: rest →
      t.drawInputs = rest ∧ ∀ k < 8, (t.reg x).getLsbD k = (draw.getLsbD k && kk.getLsbD k))

/-! ## Skips -/

/-- R110, R111, R112, R113, R116: a skip adds 2 to `pc`, modulo 65536, exactly when its condition holds, and changes
nothing else. The group is the spec's general knowledge (GK2, log entry 16); that 5xyn and 9xyn hold for every n is
its decision D10 (log entry 7), the modulus its D5 (log entry 8). -/
def Obligations.SkipsOnRegisters : Prop :=
  ∀ (x y : RegIdx) (kk : Byte) (n : BitVec 4) (s : State),
    (∃ t, exec (.seImm x kk) s = .next t ∧ OnlyPc s t ∧
      t.pc.toNat = if s.reg x = kk then (s.pc.toNat + 2) % 65536 else s.pc.toNat) ∧
    (∃ t, exec (.sneImm x kk) s = .next t ∧ OnlyPc s t ∧
      t.pc.toNat = if s.reg x = kk then s.pc.toNat else (s.pc.toNat + 2) % 65536) ∧
    (∃ t, exec (.seReg x y n) s = .next t ∧ OnlyPc s t ∧
      t.pc.toNat = if s.reg x = s.reg y then (s.pc.toNat + 2) % 65536 else s.pc.toNat) ∧
    (∃ t, exec (.sneReg x y n) s = .next t ∧ OnlyPc s t ∧
      t.pc.toNat = if s.reg x = s.reg y then s.pc.toNat else (s.pc.toNat + 2) % 65536)

/-- R114, R115: `Ex9E` and `ExA1` look at the level of key `V[x] & 0xF` in this frame. That Ex9E and ExA1 exist and
skip is the spec's general knowledge (GK2, log entry 16); the use of the low four bits is its decision D16 (log
entry 12), one level a frame its D15 (log entry 3), the modulus its D5 (log entry 8). -/
def Obligations.SkipsOnKeys : Prop :=
  ∀ (x : RegIdx) (s : State),
    (∃ t, exec (.skp x) s = .next t ∧ OnlyPc s t ∧
      t.pc.toNat =
        if s.keys.getLsbD ((s.reg x).toNat % 16) then (s.pc.toNat + 2) % 65536 else s.pc.toNat) ∧
    (∃ t, exec (.sknp x) s = .next t ∧ OnlyPc s t ∧
      t.pc.toNat =
        if s.keys.getLsbD ((s.reg x).toNat % 16) then s.pc.toNat else (s.pc.toNat + 2) % 65536)

/-! ## Memory -/

/-- R120, R121, R122: the writers of `I` that store nothing; VF is not written. The 12-bit mask of Fx1E is the spec's
decision D7 (log entry 8); Annn and Fx1E are its general knowledge (GK2, log entry 16). -/
def Obligations.AddressRegisterWriters : Prop :=
  ∀ (x : RegIdx) (nnn : BitVec 12) (s : State),
    (∃ t, exec (.ldI nnn) s = .next t ∧ t.i.toNat = nnn.toNat ∧ OnlyI s t) ∧
    (∃ t, exec (.addI x) s = .next t ∧ t.i.toNat = (s.i.toNat + (s.reg x).toNat) % 4096 ∧ OnlyI s t) ∧
    (∃ t, exec (.ldGlyph x) s = .next t ∧ t.i.toNat = 5 * ((s.reg x).toNat % 16) ∧ OnlyI s t)

/-- R42, R43: below 4096 a write is seen by the next read of its address and by no other; at 4096 and above it is
dropped with `MEM_WRITE_OOR`, and a read gives 0 with `MEM_READ_OOR`. -/
def Obligations.BoundsCheckedMemory : Prop :=
  ∀ (s : State) (a : Nat) (b : Byte), Memory.wf s.cfg.font s.mem →
    (a < 4096 → memRead a (memWrite a b s) = (b, memWrite a b s) ∧ (memWrite a b s).diags = s.diags ∧
      Memory.wf (memWrite a b s).cfg.font (memWrite a b s).mem ∧ memRead a s = (s.peek a, s)) ∧
    (∀ c, c ≠ a → (memWrite a b s).peek c = s.peek c) ∧
    (memWrite a b s = { s with mem := (memWrite a b s).mem, diags := (memWrite a b s).diags }) ∧
    (4096 ≤ a → memWrite a b s = { s with diags := .memWriteOor :: s.diags } ∧
      memRead a s = (0, { s with diags := .memReadOor :: s.diags }))

/-- The canonical form is canonical: two memories in it that read the same everywhere are the same list. The list is
the model's own form of mem. -/
def Obligations.EqualReadsMeanEqualMemories : Prop :=
  ∀ (font : Font) (m n : Memory), Memory.wf font m → Memory.wf font n →
    (∀ a, Memory.read font m a = Memory.read font n a) → m = n

/-- R123: `Fx33` stores the three decimal digits of `V[x]` at `I`, `I + 1`, `I + 2`, dropping with `MEM_WRITE_OOR`
each one at 4096 or above; `I` and everything else is unchanged. That I + 1 and I + 2 are never reduced is the
spec's decision D8 (log entry 8), and that each byte is dropped on its own its resolution C10. -/
def Obligations.BcdStoresThreeDigits : Prop :=
  ∀ (x : RegIdx) (s : State), Memory.wf s.cfg.font s.mem → ∃ t, exec (.bcd x) s = .next t ∧
    (s.dataAddr 0 < 4096 → (t.peek (s.dataAddr 0)).toNat = (s.reg x).toNat / 100) ∧
    (s.dataAddr 1 < 4096 → (t.peek (s.dataAddr 1)).toNat = (s.reg x).toNat / 10 % 10) ∧
    (s.dataAddr 2 < 4096 → (t.peek (s.dataAddr 2)).toNat = (s.reg x).toNat % 10) ∧
    (∀ a, a ≠ s.dataAddr 0 → a ≠ s.dataAddr 1 → a ≠ s.dataAddr 2 → t.peek a = s.peek a) ∧
    t.diags = List.replicate (min 3 (s.i.toNat + 3 - 4096)) .memWriteOor ++ s.diags ∧
    t = { s with mem := t.mem, diags := t.diags }

/-- R124: `Fx55` stores `V[0..x]` from `I` up, dropping with `MEM_WRITE_OOR` each byte at 4096 or above, then
advances `I` by `x + 1` modulo 4096 under `memory_increments_i`. The 12-bit mask of the advance is the spec's
decision D7 and the unreduced addresses its D8 (log entry 8); that each byte is checked on its own is its resolution
C10. -/
def Obligations.DumpStoresRegisters : Prop :=
  ∀ (x : RegIdx) (s : State), Memory.wf s.cfg.font s.mem → ∃ t, exec (.dump x) s = .next t ∧
    (∀ r : RegIdx, r ≤ x → s.dataAddr r.val < 4096 → t.peek (s.dataAddr r.val) = s.reg r) ∧
    (∀ a, (∀ r : RegIdx, r ≤ x → a ≠ s.dataAddr r.val) → t.peek a = s.peek a) ∧
    t.i.toNat = (if s.cfg.memoryIncrementsI then (s.i.toNat + x.val + 1) % 4096 else s.i.toNat) ∧
    t.diags = List.replicate (min (x.val + 1) (s.i.toNat + x.val + 1 - 4096)) .memWriteOor ++ s.diags ∧
    t = { s with mem := t.mem, i := t.i, diags := t.diags }

/-- R125: `Fx65` loads `V[0..x]` from `I` up, 0 with `MEM_READ_OOR` from each address of 4096 or above, leaves the
registers above `x`, then advances `I` by `x + 1` modulo 4096 under `memory_increments_i`. The 12-bit mask of the
advance is the spec's decision D7 and the unreduced addresses its D8 (log entry 8); that each byte is checked on its
own is its resolution C10. -/
def Obligations.LoadReadsRegisters : Prop :=
  ∀ (x : RegIdx) (s : State), ∃ t, exec (.load x) s = .next t ∧
    (∀ r : RegIdx, t.reg r = if r ≤ x then s.peek (s.dataAddr r.val) else s.reg r) ∧
    (∀ r : RegIdx, r ≤ x → 4096 ≤ s.dataAddr r.val → t.reg r = 0) ∧
    (∀ a, t.peek a = s.peek a) ∧
    t.i.toNat = (if s.cfg.memoryIncrementsI then (s.i.toNat + x.val + 1) % 4096 else s.i.toNat) ∧
    t.diags = List.replicate (min (x.val + 1) (s.i.toNat + x.val + 1 - 4096)) .memReadOor ++ s.diags ∧
    t = { s with v := t.v, i := t.i, diags := t.diags }

/-- R54, R44: the very next fetch sees what `Fx55` and `Fx33` stored, byte by byte: each of the two fetched bytes
that the instruction stored over is the stored byte, and each that it did not is the byte fetched before. R54 is the
spec's own inference; the unreduced addresses are its decision D8 (log entry 8). -/
def Obligations.NextFetchSeesStores : Prop :=
  ∀ (x : RegIdx) (s t : State), Memory.wf s.cfg.font s.mem →
    (exec (.dump x) s = .next t → t.pc = s.pc ∧
      (s.pc.toNat < 4096 →
        (∀ r : RegIdx, r ≤ x → s.dataAddr r.val = s.pc.toNat → fetchedHigh t = s.reg r) ∧
        ((∀ r : RegIdx, r ≤ x → s.dataAddr r.val ≠ s.pc.toNat) → fetchedHigh t = fetchedHigh s)) ∧
      (s.pc.toNat + 1 < 4096 →
        (∀ r : RegIdx, r ≤ x → s.dataAddr r.val = s.pc.toNat + 1 → fetchedLow t = s.reg r) ∧
        ((∀ r : RegIdx, r ≤ x → s.dataAddr r.val ≠ s.pc.toNat + 1) → fetchedLow t = fetchedLow s))) ∧
    (exec (.bcd x) s = .next t → t.pc = s.pc ∧
      (s.pc.toNat < 4096 →
        (∀ k < 3, s.dataAddr k = s.pc.toNat → (fetchedHigh t).toNat = (s.reg x).toNat / 10 ^ (2 - k) % 10) ∧
        ((∀ k < 3, s.dataAddr k ≠ s.pc.toNat) → fetchedHigh t = fetchedHigh s)) ∧
      (s.pc.toNat + 1 < 4096 →
        (∀ k < 3, s.dataAddr k = s.pc.toNat + 1 → (fetchedLow t).toNat = (s.reg x).toNat / 10 ^ (2 - k) % 10) ∧
        ((∀ k < 3, s.dataAddr k ≠ s.pc.toNat + 1) → fetchedLow t = fetchedLow s)))

/-- After `Fx55` then, with `I` back where it was, `Fx65` of the same `x`, every register of `0..x` that was stored
in range has its value again, whatever the registers held between them (R124, R125). The unreduced addresses are the
spec's decision D8 (log entry 8). -/
def Obligations.LoadAfterDumpRestoresRegisters : Prop :=
  ∀ (x : RegIdx) (s t u w : State), Memory.wf s.cfg.font s.mem → exec (.dump x) s = .next t →
    u.mem = t.mem → u.cfg = t.cfg → u.i = s.i → exec (.load x) u = .next w →
    ∀ r : RegIdx, r ≤ x → s.dataAddr r.val < 4096 → w.reg r = s.reg r

/-! ## Drawing -/

/-- R130: `00E0` clears every pixel and changes nothing else; VF is not written. R130 is the spec's general knowledge
(GK2, log entry 16). -/
def Obligations.ClearScreenClearsEveryPixel : Prop :=
  ∀ s : State, ∃ t, exec .cls s = .next t ∧ (∀ c r, fbGet t.fb c r = false) ∧ (∀ a, t.peek a = s.peek a) ∧
    t = { s with fb := t.fb }

/-- R131, R132: `Dxyn` inverts exactly the pixels under a set bit of the sprite; VF is 1 if one of them was set,
else 0, and is written last; one `MEM_READ_OOR` for each row read from an address of 4096 or more (the rows read are
those that land on the screen); nothing else changes. That rows below the screen are dropped, unread, is the spec's
decision D12 (U3, C5, log entry 6); that a row at I + row of 4096 or more is read out of range is its D8 (log entry
8). -/
def Obligations.DrawXorsSprite : Prop :=
  ∀ (x y : RegIdx) (n : BitVec 4) (s : State), ∃ t, exec (.drw x y n) s = .next t ∧
    (∀ c r, SpriteCovers x y n s c r → fbGet t.fb c r = !fbGet s.fb c r) ∧
    (∀ c r, ¬ SpriteCovers x y n s c r → fbGet t.fb c r = fbGet s.fb c r) ∧
    ((∃ c r, SpriteCovers x y n s c r ∧ fbGet s.fb c r = true) → t.reg 15 = 1) ∧
    ((∀ c r, SpriteCovers x y n s c r → fbGet s.fb c r = false) → t.reg 15 = 0) ∧
    (∀ r, r ≠ 15 → t.reg r = s.reg r) ∧ (∀ a, t.peek a = s.peek a) ∧
    t.diags = List.replicate
      (min (min n.toNat (32 - (s.reg y).toNat % 32))
        (s.i.toNat + min n.toNat (32 - (s.reg y).toNat % 32) - 4096)) .memReadOor ++ s.diags ∧
    t = { s with v := t.v, fb := t.fb, diags := t.diags }

/-- R131, R132 (the source's example S5): the same sprite drawn twice at the same place restores the screen; on a
clear screen the first draw leaves VF 0 and the second sets it exactly when the sprite has a pixel on the screen.
Rows below the screen are the spec's decision D12 (log entry 6), the unreduced addresses its D8 (log entry 8). -/
def Obligations.DrawingTwiceRestoresScreen : Prop :=
  ∀ (x y : RegIdx) (n : BitVec 4) (s t u : State),
    exec (.drw x y n) s = .next t → exec (.drw x y n) t = .next u →
    (t.reg x).toNat % 64 = (s.reg x).toNat % 64 → (t.reg y).toNat % 32 = (s.reg y).toNat % 32 →
    u.fb = s.fb ∧
    ((∀ c r, fbGet s.fb c r = false) →
      t.reg 15 = 0 ∧ (u.reg 15 = 1 ↔ ∃ c r, SpriteCovers x y n s c r))

/-! ## Timers, key wait -/

/-- R141, R142: `Fx15` and `Fx18` copy `V[x]` to one timer and change nothing else; `sound_enable` stays. The rules
are the spec's general knowledge (GK2, D26, log entry 16). -/
def Obligations.TimersAreSetFromRegister : Prop :=
  ∀ (x : RegIdx) (s : State),
    (∃ t, exec (.setDt x) s = .next t ∧ t.dt = s.reg x ∧ (∀ a, t.peek a = s.peek a) ∧ t = { s with dt := t.dt }) ∧
    (∃ t, exec (.setSt x) s = .next t ∧ t.st = s.reg x ∧ (∀ a, t.peek a = s.peek a) ∧ t = { s with st := t.st })

/-- R143: `Fx0A` enters AwaitingKey with target `x` and nothing observed; `V[x]`, `pc` and the rest stay. -/
def Obligations.WaitForKeySuspends : Prop :=
  ∀ (x : RegIdx) (s : State), ∃ t, exec (.ldKey x) s = .next t ∧ t.keyWaiting = true ∧ t.keyTarget = x ∧
    (∀ k, t.keysObserved.getLsbD k = false) ∧ (∀ a, t.peek a = s.peek a) ∧
    t = { s with keyWaiting := t.keyWaiting, keyTarget := t.keyTarget, keysObserved := t.keysObserved }

/-- R160: one tick: the output from the old `ST`, both timers down by 1 and not below 0, nothing else. That the output
comes before the decrement is the spec's resolution C8 (log entry 15). -/
def Obligations.TickCountsDown : Prop :=
  ∀ s : State,
    (tick s).soundEnable = decide (0 < s.st.toNat) ∧ (tick s).dt.toNat = s.dt.toNat - 1 ∧
    (tick s).st.toNat = s.st.toNat - 1 ∧
    tick s = { s with dt := (tick s).dt, st := (tick s).st, soundEnable := (tick s).soundEnable }

/-- R160, R142 (the source's example S9): from `ST = n`, the first `n` ticks output true and every later one false.
Rests on the spec's resolution C8 (log entry 15). -/
def Obligations.SoundLastsAsManyTicksAsTimer : Prop :=
  ∀ (s : State) (k : Nat),
    (tick^[k] s).st.toNat = s.st.toNat - k ∧ (tick^[k] s).dt.toNat = s.dt.toNat - k ∧
    ((tick^[k + 1] s).soundEnable = true ↔ k < s.st.toNat)

/-- R165, R166(h): one key service of a waiting machine. If some key was observed and is not held now, the lowest such
key goes to `V[key_target_register]` and the machine is Running again; if none, the keys held are observed and it
waits on. The other registers, `pc`, memory and the rest stay. Levels and ties are the spec's decisions D13 and D14
(log entry 11). -/
def Obligations.KeyServiceDeliversLowestReleasedKey : Prop :=
  ∀ (keys : Keys) (s : State), s.keyWaiting = true →
    (∀ k : Fin 16, s.keysObserved.getLsbD k.val = true → keys.getLsbD k.val = false →
      (∀ j : Fin 16, j < k → ¬ (s.keysObserved.getLsbD j.val = true ∧ keys.getLsbD j.val = false)) →
      (keyService keys s).keyWaiting = false ∧ ((keyService keys s).reg s.keyTarget).toNat = k.val ∧
      (∀ j : Fin 16, j < k → (keyService keys s).keysObserved.getLsbD j.val =
        (s.keysObserved.getLsbD j.val || keys.getLsbD j.val)) ∧
      (∀ j : Fin 16, k ≤ j →
        (keyService keys s).keysObserved.getLsbD j.val = s.keysObserved.getLsbD j.val)) ∧
    ((∀ k : Fin 16, s.keysObserved.getLsbD k.val = true → keys.getLsbD k.val = true) →
      keyService keys s = { s with keysObserved := (keyService keys s).keysObserved } ∧
      ∀ j : Fin 16, (keyService keys s).keysObserved.getLsbD j.val =
        (s.keysObserved.getLsbD j.val || keys.getLsbD j.val)) ∧
    (∀ r, r ≠ s.keyTarget → (keyService keys s).reg r = s.reg r) ∧
    keyService keys s = { s with v := (keyService keys s).v, keyWaiting := (keyService keys s).keyWaiting,
                                 keysObserved := (keyService keys s).keysObserved }

/-- R165: a machine that is Running has nothing to service. -/
def Obligations.KeyServiceOfRunningMachineDoesNothing : Prop :=
  ∀ (keys : Keys) (s : State), s.keyWaiting = false → keyService keys s = s

/-- R166(a), (b), (c): the wait that `Fx0A` begins survives the first service whatever keys are held; the second ends
it exactly when a key held in the first is no longer held. Rests on the spec's decision D13 (log entry 11). -/
def Obligations.KeyWaitNeedsPressThenRelease : Prop :=
  ∀ (x : RegIdx) (s t : State) (first second : Keys), exec (.ldKey x) s = .next t →
    (keyService first t).keyWaiting = true ∧
    ((keyService second (keyService first t)).keyWaiting = false ↔
      ∃ k : Fin 16, first.getLsbD k.val = true ∧ second.getLsbD k.val = false)

/-- R164: a step takes the machine from Running to AwaitingKey only by `Fx0A`, and back only by the key service that
begins a frame. That a step begins a frame is the model's choice (log entry 2); releases are levels by the spec's
decision D13 (log entry 11). -/
def Obligations.OnlyKeyInstructionsChangeWaitState : Prop :=
  ∀ s t : State, Machine.step s = .next t →
    (s.keyWaiting = false → t.keyWaiting = true →
      ∃ ran left, s.phase = .running ran left ∧ fieldOp s.fetchWord = 0xF ∧ fieldKk s.fetchWord = 0x0A) ∧
    (s.keyWaiting = true → t.keyWaiting = false →
      s.phase = .frameStart ∧
        ∃ k : Fin 16, s.keysObserved.getLsbD k.val = true ∧ t.keys.getLsbD k.val = false)

/-! ## The frame -/

/-- R170: the steps of one frame, from its start to the next frame's start, make exactly `Frame(keys)` with the key
levels supplied for it: key service or the bounded run of instructions, then one tick. How the model cuts a frame into
steps is its own choice (log entry 2). -/
def Obligations.StepsOfOneFrameAreFrame : Prop :=
  ∀ s : State, s.phase = .frameStart →
    ∃ (k : Nat) (t : State), 0 < k ∧ frame s.nextKeys s.takeKeys = .next t ∧ t.phase = .frameStart ∧ RunsTo k s t

/-- R170, R171: with `halt_before_draw`, when a draw is next and an instruction has already run in this frame, the
step leaves the loop and runs nothing; a draw that is the frame's first instruction runs. How a draw is recognised
is the spec's decision D21 (log entry 14); that leaving the loop is a step of its own is the model's choice (log
entry 2). -/
def Obligations.HaltBeforeDrawEndsLoop : Prop :=
  ∀ (s : State) (ran left : Nat) (t : State), s.phase = .running ran left → s.keyWaiting = false →
    s.cfg.haltBeforeDraw = true → fieldOp s.fetchWord = 0xD → Machine.step s = .next t →
    (1 ≤ ran → t = { s with phase := .tickDue }) ∧
    (ran = 0 → 0 < left → t.phase = .running 1 (left - 1) ∧ t.pc = s.pc + 2 ∧
      ∃ u, exec (.drw (fieldX s.fetchWord) (fieldY s.fetchWord) (fieldN s.fetchWord)) u = .next t ∧
        u.diags = List.replicate (min 2 (s.pc.toNat + 2 - 4096)) .memReadOor ++ s.diags ∧
        u = { s with pc := s.pc + 2, phase := .running 1 (left - 1), diags := u.diags })

/-- R172: a frame begun runs at most `instructions_per_frame` instructions: from a frame's start, after any number
of steps, a state inside the loop has run no more than the budget. What a step is, and the count, are the model's
choice (log entry 2). -/
def Obligations.FrameRunsAtMostBudget : Prop :=
  ∀ (s t : State) (k ran left : Nat), s.phase = .frameStart → RunsTo k s t → t.phase = .running ran left →
    ran ≤ t.cfg.instructionsPerFrame

/-! ## Reset and the invariant -/

/-- R32: what reset leaves: every register 0, `pc` 0x200, the font at 0 to 79 and 0 in the rest of memory, an empty
stack, a clear screen, Running, no sound. (That the screen is clear and the sound off rests on the spec's own decision
D17.) The clear screen and the sound off are the spec's decision D17 (log entry 10); the program is empty (log entry
17). -/
def Obligations.ResetLeavesTableOfR32 : Prop :=
  (∀ r, State.reset.reg r = 0) ∧ State.reset.pc.toNat = 0x200 ∧ State.reset.i = 0 ∧ State.reset.dt = 0 ∧
  State.reset.st = 0 ∧ State.reset.sp = 0 ∧ (∀ k : Fin 16, State.reset.stack[k.val] = 0) ∧
  (∀ a : Fin 80, State.reset.peek a.val = State.reset.cfg.font[a.val]) ∧
  (∀ a, 80 ≤ a → State.reset.peek a = 0) ∧ State.reset.keyWaiting = false ∧ State.reset.keyTarget = 0 ∧
  (∀ k, State.reset.keysObserved.getLsbD k = false) ∧ (∀ c r, fbGet State.reset.fb c r = false) ∧
  State.reset.soundEnable = false

/-- R181, R183: `Reset(program)` stores the program verbatim from 0x200 up, drops what is beyond 3584 bytes, leaves
the font below and zeros above, records nothing, and leaves every other piece of state as the table of R32 has it. The
clear screen and the sound off of reset are the spec's decision D17 (log entry 10). -/
def Obligations.ResetLoadsProgram : Prop :=
  ∀ (cfg : Config) (program : List Byte),
    (∀ j (h : j < program.length), j < 3584 → (State.resetWith cfg program).peek (0x200 + j) = program[j]) ∧
    (∀ a : Fin 80, (State.resetWith cfg program).peek a.val = cfg.font[a.val]) ∧
    (∀ a, 80 ≤ a → a < 0x200 → (State.resetWith cfg program).peek a = 0) ∧
    (∀ a, 0x200 + program.length ≤ a → (State.resetWith cfg program).peek a = 0) ∧
    State.resetWith cfg program = { State.reset with cfg := cfg, mem := (State.resetWith cfg program).mem } ∧
    (State.resetWith cfg program).Inv

/-- The state after reset meets the invariant. -/
def Obligations.ResetMeetsInvariant : Prop := State.reset.Inv

/-- R17, R21, R170: every step from every state that meets the invariant gives one that meets it: memory canonical,
`I` at most 0xFFF, stack slot 15 never written, the frame's count and rest together the budget. R17 rests on the
spec's decision D7 (log entry 8), R21 on its D4 (log entry 13); the canonical list and the place in the frame are the
model's own (log entry 2). -/
def Obligations.EveryStepKeepsInvariant : Prop :=
  ∀ s t : State, s.Inv → Machine.step s = .next t → t.Inv
end

