-- ==== Sys2Proof/Laws/Decode.lean ====
section
/-! SUPPORT. Laws/Decode.lean: each field of R61 of a word of each format of R62, and when each row of R66 selects a
word. -/

namespace Sys2Proof

theorem toNat_append' {m n : Nat} (a : BitVec m) (b : BitVec n) :
    (a ++ b).toNat = a.toNat * 2 ^ n + b.toNat := by
  rw [BitVec.toNat_append, Nat.shiftLeft_eq, ← Nat.shiftLeft_eq, ← Nat.shiftLeft_add_eq_or_of_lt b.isLt,
    Nat.shiftLeft_eq]

theorem toNat_field (w : Word) (k n : Nat) : (w.extractLsb' k n).toNat = w.toNat / 2 ^ k % 2 ^ n := by
  simp [Nat.shiftRight_eq_div_pow]

theorem wordA_toNat (op : BitVec 4) (nnn : BitVec 12) : (wordA op nnn).toNat = op.toNat * 4096 + nnn.toNat :=
  toNat_append' op nnn

theorem wordRI_toNat (op : BitVec 4) (x : RegIdx) (kk : Byte) :
    (wordRI op x kk).toNat = op.toNat * 4096 + x.val * 256 + kk.toNat := by
  have h : (wordRI op x kk).toNat = (op.toNat * 2 ^ 4 + x.val) * 2 ^ 8 + kk.toNat :=
    (toNat_append' _ _).trans (congrArg (fun k => k * 2 ^ 8 + kk.toNat) (toNat_append' _ _))
  rw [h]; ring

theorem wordRR_toNat (op : BitVec 4) (x y : RegIdx) (n : BitVec 4) :
    (wordRR op x y n).toNat = op.toNat * 4096 + x.val * 256 + y.val * 16 + n.toNat := by
  have h : (wordRR op x y n).toNat = ((op.toNat * 2 ^ 4 + x.val) * 2 ^ 4 + y.val) * 2 ^ 4 + n.toNat :=
    (toNat_append' _ _).trans (congrArg (fun k => k * 2 ^ 4 + n.toNat)
      ((toNat_append' _ _).trans (congrArg (fun k => k * 2 ^ 4 + y.val) (toNat_append' _ _))))
  rw [h]; ring

/-! ### The fields as numbers -/

theorem fieldOp_toNat (w : Word) : (fieldOp w).toNat = w.toNat / 4096 := by
  have := w.isLt
  rw [fieldOp, toNat_field]; omega

theorem fieldX_val (w : Word) : (fieldX w).val = w.toNat / 256 % 16 := toNat_field w 8 4

theorem fieldY_val (w : Word) : (fieldY w).val = w.toNat / 16 % 16 := toNat_field w 4 4

theorem fieldN_toNat (w : Word) : (fieldN w).toNat = w.toNat % 16 := by
  rw [fieldN, toNat_field]; simp

theorem fieldKk_toNat (w : Word) : (fieldKk w).toNat = w.toNat % 256 := by
  rw [fieldKk, toNat_field]; simp

theorem fieldNnn_toNat (w : Word) : (fieldNnn w).toNat = w.toNat % 4096 := by
  rw [fieldNnn, toNat_field]; simp

/-! ### The fields of each format -/

@[simp] theorem fieldOp_wordA (op : BitVec 4) (nnn : BitVec 12) : fieldOp (wordA op nnn) = op := by
  apply BitVec.eq_of_toNat_eq; rw [fieldOp_toNat, wordA_toNat]; omega

@[simp] theorem fieldNnn_wordA (op : BitVec 4) (nnn : BitVec 12) : fieldNnn (wordA op nnn) = nnn := by
  apply BitVec.eq_of_toNat_eq; rw [fieldNnn_toNat, wordA_toNat]; omega

@[simp] theorem fieldOp_wordRI (op : BitVec 4) (x : RegIdx) (kk : Byte) : fieldOp (wordRI op x kk) = op := by
  apply BitVec.eq_of_toNat_eq; rw [fieldOp_toNat, wordRI_toNat]; omega

@[simp] theorem fieldX_wordRI (op : BitVec 4) (x : RegIdx) (kk : Byte) : fieldX (wordRI op x kk) = x := by
  apply Fin.ext; rw [fieldX_val, wordRI_toNat]; omega

@[simp] theorem fieldKk_wordRI (op : BitVec 4) (x : RegIdx) (kk : Byte) : fieldKk (wordRI op x kk) = kk := by
  apply BitVec.eq_of_toNat_eq; rw [fieldKk_toNat, wordRI_toNat]; omega

@[simp] theorem fieldOp_wordRR (op : BitVec 4) (x y : RegIdx) (n : BitVec 4) :
    fieldOp (wordRR op x y n) = op := by
  apply BitVec.eq_of_toNat_eq; rw [fieldOp_toNat, wordRR_toNat]; omega

@[simp] theorem fieldX_wordRR (op : BitVec 4) (x y : RegIdx) (n : BitVec 4) :
    fieldX (wordRR op x y n) = x := by
  apply Fin.ext; rw [fieldX_val, wordRR_toNat]; omega

@[simp] theorem fieldY_wordRR (op : BitVec 4) (x y : RegIdx) (n : BitVec 4) :
    fieldY (wordRR op x y n) = y := by
  apply Fin.ext; rw [fieldY_val, wordRR_toNat]; omega

@[simp] theorem fieldN_wordRR (op : BitVec 4) (x y : RegIdx) (n : BitVec 4) :
    fieldN (wordRR op x y n) = n := by
  apply BitVec.eq_of_toNat_eq; rw [fieldN_toNat, wordRR_toNat]; omega

/-! ### The bits of each format -/

theorem wordA_getLsbD (op : BitVec 4) (nnn : BitVec 12) (i : Nat) :
    (wordA op nnn).getLsbD i = if i < 12 then nnn.getLsbD i else op.getLsbD (i - 12) :=
  BitVec.getLsbD_append

theorem wordRI_getLsbD (op : BitVec 4) (x : RegIdx) (kk : Byte) (i : Nat) :
    (wordRI op x kk).getLsbD i =
      if i < 8 then kk.getLsbD i
      else if i - 8 < 4 then (BitVec.ofFin (w := 4) x).getLsbD (i - 8) else op.getLsbD (i - 8 - 4) :=
  BitVec.getLsbD_append.trans (congrArg (fun b => if i < 8 then kk.getLsbD i else b) BitVec.getLsbD_append)

theorem wordRR_getLsbD (op : BitVec 4) (x y : RegIdx) (n : BitVec 4) (i : Nat) :
    (wordRR op x y n).getLsbD i =
      if i < 4 then n.getLsbD i
      else if i - 4 < 4 then (BitVec.ofFin (w := 4) y).getLsbD (i - 4)
      else if i - 4 - 4 < 4 then (BitVec.ofFin (w := 4) x).getLsbD (i - 4 - 4)
      else op.getLsbD (i - 4 - 4 - 4) :=
  BitVec.getLsbD_append.trans (congrArg (fun b => if i < 4 then n.getLsbD i else b)
    (BitVec.getLsbD_append.trans (congrArg
      (fun b => if i - 4 < 4 then (BitVec.ofFin (w := 4) y).getLsbD (i - 4) else b) BitVec.getLsbD_append)))

/-! ### What each mask of R66 keeps of a word, and when a row selects it -/

theorem and_F000 (w : Word) : w &&& (0xF000 : Word) = wordA (fieldOp w) 0 := by
  apply BitVec.eq_of_getLsbD_eq
  intro i hi
  simp only [wordA_getLsbD, fieldOp, BitVec.getLsbD_and, BitVec.getLsbD_extractLsb']
  interval_cases i <;> simp

theorem and_F00F (w : Word) : w &&& (0xF00F : Word) = wordRR (fieldOp w) 0 0 (fieldN w) := by
  apply BitVec.eq_of_getLsbD_eq
  intro i hi
  simp only [wordRR_getLsbD, fieldOp, fieldN, BitVec.getLsbD_and, BitVec.getLsbD_extractLsb']
  interval_cases i <;> simp

theorem and_F0FF (w : Word) : w &&& (0xF0FF : Word) = wordRI (fieldOp w) 0 (fieldKk w) := by
  apply BitVec.eq_of_getLsbD_eq
  intro i hi
  simp only [wordRI_getLsbD, fieldOp, fieldKk, BitVec.getLsbD_and, BitVec.getLsbD_extractLsb']
  interval_cases i <;> simp

theorem and_FFFF (w : Word) : w &&& (0xFFFF : Word) = w := by
  apply BitVec.eq_of_getLsbD_eq
  intro i hi
  simp only [BitVec.getLsbD_and]
  interval_cases i <;> simp

/-- A row of format `A` or `RI` with no sub-opcode selects by `op`. -/
theorem selects_op (m : String) (p : Word) (k : BitVec 4) (w : Word) (hp : p = wordA k 0) :
    (OpRow.mk m 0xF000 p).selects w = decide (fieldOp w = k) := by
  subst hp
  rw [Bool.eq_iff_iff, OpRow.selects, and_F000, beq_iff_eq, decide_eq_true_eq]
  exact ⟨fun h => by simpa using congrArg fieldOp h, fun h => by rw [h]⟩

/-- A row of family 8 selects by `op` and `n`. -/
theorem selects_op_n (m : String) (p : Word) (k n : BitVec 4) (w : Word) (hp : p = wordRR k 0 0 n) :
    (OpRow.mk m 0xF00F p).selects w = decide (fieldOp w = k ∧ fieldN w = n) := by
  subst hp
  rw [Bool.eq_iff_iff, OpRow.selects, and_F00F, beq_iff_eq, decide_eq_true_eq]
  exact ⟨fun h => ⟨by simpa using congrArg fieldOp h, by simpa using congrArg fieldN h⟩,
    fun h => by rw [h.1, h.2]⟩

/-- A row of family E or F selects by `op` and `kk`. -/
theorem selects_op_kk (m : String) (p : Word) (k : BitVec 4) (kk : Byte) (w : Word) (hp : p = wordRI k 0 kk) :
    (OpRow.mk m 0xF0FF p).selects w = decide (fieldOp w = k ∧ fieldKk w = kk) := by
  subst hp
  rw [Bool.eq_iff_iff, OpRow.selects, and_F0FF, beq_iff_eq, decide_eq_true_eq]
  exact ⟨fun h => ⟨by simpa using congrArg fieldOp h, by simpa using congrArg fieldKk h⟩,
    fun h => by rw [h.1, h.2]⟩

/-- A row of family 0 selects the whole word. -/
theorem selects_word (m : String) (p w : Word) : (OpRow.mk m 0xFFFF p).selects w = decide (w = p) := by
  rw [Bool.eq_iff_iff, OpRow.selects, and_FFFF, beq_iff_eq, decide_eq_true_eq]

/-- The sixteen values of the top nibble. -/
theorem nibble_cases : ∀ b : BitVec 4, b = 0 ∨ b = 1 ∨ b = 2 ∨ b = 3 ∨ b = 4 ∨ b = 5 ∨ b = 6 ∨ b = 7 ∨ b = 8 ∨
    b = 9 ∨ b = 10 ∨ b = 11 ∨ b = 12 ∨ b = 13 ∨ b = 14 ∨ b = 15 := by decide

/-- A word that is not in family 0 is neither `00E0` nor `00EE`. -/
theorem ne_family0_of_fieldOp {w : Word} (h : fieldOp w ≠ 0) : w ≠ 0x00E0 ∧ w ≠ 0x00EE :=
  ⟨by rintro rfl; exact h (by decide), by rintro rfl; exact h (by decide)⟩

/-- A word from its fields, in each format (R62). -/
theorem wordA_fields (w : Word) : wordA (fieldOp w) (fieldNnn w) = w := by
  have := w.isLt
  apply BitVec.eq_of_toNat_eq; rw [wordA_toNat, fieldOp_toNat, fieldNnn_toNat]; omega

theorem wordRI_fields (w : Word) : wordRI (fieldOp w) (fieldX w) (fieldKk w) = w := by
  have := w.isLt
  apply BitVec.eq_of_toNat_eq; rw [wordRI_toNat, fieldOp_toNat, fieldX_val, fieldKk_toNat]; omega

theorem wordRR_fields (w : Word) : wordRR (fieldOp w) (fieldX w) (fieldY w) (fieldN w) = w := by
  have := w.isLt
  apply BitVec.eq_of_toNat_eq; rw [wordRR_toNat, fieldOp_toNat, fieldX_val, fieldY_val, fieldN_toNat]; omega

/-! ### The rows of R66, as conditions on the fields -/

theorem opRowsLow_selects (w : Word) : opRowsLow.map (fun r => r.selects w) =
    [decide (w = 0x00E0), decide (w = 0x00EE), decide (fieldOp w = 1), decide (fieldOp w = 2),
      decide (fieldOp w = 3), decide (fieldOp w = 4), decide (fieldOp w = 5), decide (fieldOp w = 6),
      decide (fieldOp w = 7)] := by
  simp only [opRowsLow, List.map_cons, List.map_nil, selects_word]
  rw [selects_op _ _ 1 w (by decide), selects_op _ _ 2 w (by decide), selects_op _ _ 3 w (by decide),
    selects_op _ _ 4 w (by decide), selects_op _ _ 5 w (by decide), selects_op _ _ 6 w (by decide),
    selects_op _ _ 7 w (by decide)]

theorem opRowsFamily8_selects (w : Word) : opRowsFamily8.map (fun r => r.selects w) =
    ([0, 1, 2, 3, 4, 5, 6, 7, 14] : List (BitVec 4)).map (fun n => decide (fieldOp w = 8 ∧ fieldN w = n)) := by
  simp only [opRowsFamily8, List.map_cons, List.map_nil]
  rw [selects_op_n _ _ 8 0 w (by decide), selects_op_n _ _ 8 1 w (by decide), selects_op_n _ _ 8 2 w (by decide),
    selects_op_n _ _ 8 3 w (by decide), selects_op_n _ _ 8 4 w (by decide), selects_op_n _ _ 8 5 w (by decide),
    selects_op_n _ _ 8 6 w (by decide), selects_op_n _ _ 8 7 w (by decide), selects_op_n _ _ 8 14 w (by decide)]

theorem opRowsHigh_selects (w : Word) : opRowsHigh.map (fun r => r.selects w) =
    [decide (fieldOp w = 9), decide (fieldOp w = 10), decide (fieldOp w = 11), decide (fieldOp w = 12),
      decide (fieldOp w = 13), decide (fieldOp w = 14 ∧ fieldKk w = 0x9E),
      decide (fieldOp w = 14 ∧ fieldKk w = 0xA1)] := by
  simp only [opRowsHigh, List.map_cons, List.map_nil]
  rw [selects_op _ _ 9 w (by decide), selects_op _ _ 10 w (by decide), selects_op _ _ 11 w (by decide),
    selects_op _ _ 12 w (by decide), selects_op _ _ 13 w (by decide), selects_op_kk _ _ 14 0x9E w (by decide),
    selects_op_kk _ _ 14 0xA1 w (by decide)]

theorem opRowsFamilyF_selects (w : Word) : opRowsFamilyF.map (fun r => r.selects w) =
    ([0x07, 0x0A, 0x15, 0x18, 0x1E, 0x29, 0x33, 0x55, 0x65] : List Byte).map
      (fun k => decide (fieldOp w = 15 ∧ fieldKk w = k)) := by
  simp only [opRowsFamilyF, List.map_cons, List.map_nil]
  rw [selects_op_kk _ _ 15 0x07 w (by decide), selects_op_kk _ _ 15 0x0A w (by decide),
    selects_op_kk _ _ 15 0x15 w (by decide), selects_op_kk _ _ 15 0x18 w (by decide),
    selects_op_kk _ _ 15 0x1E w (by decide), selects_op_kk _ _ 15 0x29 w (by decide),
    selects_op_kk _ _ 15 0x33 w (by decide), selects_op_kk _ _ 15 0x55 w (by decide),
    selects_op_kk _ _ 15 0x65 w (by decide)]

/-- Which of the 34 rows select a word: the four lists above, joined. -/
theorem opRows_selects (w : Word) : opRows.map (fun r => r.selects w) =
    opRowsLow.map (fun r => r.selects w) ++ opRowsFamily8.map (fun r => r.selects w) ++
      opRowsHigh.map (fun r => r.selects w) ++ opRowsFamilyF.map (fun r => r.selects w) := by
  simp only [opRows, List.map_append]

theorem recognised_eq (w : Word) : recognised w = (opRows.map (fun r => r.selects w)).any id := by
  simp [recognised, List.any_map]

/-- The first row that selects a word, over the list of selections, the last row's always true. -/
theorem firstRow_eq (w : Word) :
    firstRow w = ((opRows.map (fun r => r.selects w)) ++ [true]).findIdx id := by
  have h : opTable.map (fun r => r.selects w) = opRows.map (fun r => r.selects w) ++ [true] := by
    simp [opTable, OpRow.selects]
  rw [← h, firstRow, List.findIdx_map]; rfl

end Sys2Proof
end

