-- ==== Sys2Proof/Laws/State.lean ====
section
/-! SUPPORT. Laws/State.lean: each field after each update of State, and what reading a register, a byte, the fetched
word or a stack slot gives after one. All hold by rfl or by one lookup. -/

namespace Sys2Proof.Machine

section fields

variable (s : State)

/-! ### `State.setReg` -/

@[simp] theorem State.setReg_v (r : RegIdx) (b : Byte) : (s.setReg r b).v = s.v.set r.val b r.isLt := rfl
@[simp] theorem State.setReg_pc (r : RegIdx) (b : Byte) : (s.setReg r b).pc = s.pc := rfl
@[simp] theorem State.setReg_i (r : RegIdx) (b : Byte) : (s.setReg r b).i = s.i := rfl
@[simp] theorem State.setReg_dt (r : RegIdx) (b : Byte) : (s.setReg r b).dt = s.dt := rfl
@[simp] theorem State.setReg_st (r : RegIdx) (b : Byte) : (s.setReg r b).st = s.st := rfl
@[simp] theorem State.setReg_stack (r : RegIdx) (b : Byte) : (s.setReg r b).stack = s.stack := rfl
@[simp] theorem State.setReg_sp (r : RegIdx) (b : Byte) : (s.setReg r b).sp = s.sp := rfl
@[simp] theorem State.setReg_mem (r : RegIdx) (b : Byte) : (s.setReg r b).mem = s.mem := rfl
@[simp] theorem State.setReg_keyWaiting (r : RegIdx) (b : Byte) : (s.setReg r b).keyWaiting = s.keyWaiting := rfl
@[simp] theorem State.setReg_keyTarget (r : RegIdx) (b : Byte) : (s.setReg r b).keyTarget = s.keyTarget := rfl
@[simp] theorem State.setReg_keysObserved (r : RegIdx) (b : Byte) : (s.setReg r b).keysObserved = s.keysObserved := rfl
@[simp] theorem State.setReg_fb (r : RegIdx) (b : Byte) : (s.setReg r b).fb = s.fb := rfl
@[simp] theorem State.setReg_soundEnable (r : RegIdx) (b : Byte) : (s.setReg r b).soundEnable = s.soundEnable := rfl
@[simp] theorem State.setReg_diags (r : RegIdx) (b : Byte) : (s.setReg r b).diags = s.diags := rfl
@[simp] theorem State.setReg_cfg (r : RegIdx) (b : Byte) : (s.setReg r b).cfg = s.cfg := rfl
@[simp] theorem State.setReg_keys (r : RegIdx) (b : Byte) : (s.setReg r b).keys = s.keys := rfl
@[simp] theorem State.setReg_phase (r : RegIdx) (b : Byte) : (s.setReg r b).phase = s.phase := rfl
@[simp] theorem State.setReg_keyInputs (r : RegIdx) (b : Byte) : (s.setReg r b).keyInputs = s.keyInputs := rfl
@[simp] theorem State.setReg_frameNo (r : RegIdx) (b : Byte) : (s.setReg r b).frameNo = s.frameNo := rfl
@[simp] theorem State.setReg_drawInputs (r : RegIdx) (b : Byte) : (s.setReg r b).drawInputs = s.drawInputs := rfl
@[simp] theorem State.setReg_drawNo (r : RegIdx) (b : Byte) : (s.setReg r b).drawNo = s.drawNo := rfl
@[simp] theorem State.setReg_peek (r : RegIdx) (b : Byte) (q : Nat) : (s.setReg r b).peek q = s.peek q := rfl

/-! ### `State.setVF` -/

@[simp] theorem State.setVF_v (b : Byte) : (s.setVF b).v = s.v.set 15 b := rfl
@[simp] theorem State.setVF_pc (b : Byte) : (s.setVF b).pc = s.pc := rfl
@[simp] theorem State.setVF_i (b : Byte) : (s.setVF b).i = s.i := rfl
@[simp] theorem State.setVF_dt (b : Byte) : (s.setVF b).dt = s.dt := rfl
@[simp] theorem State.setVF_st (b : Byte) : (s.setVF b).st = s.st := rfl
@[simp] theorem State.setVF_stack (b : Byte) : (s.setVF b).stack = s.stack := rfl
@[simp] theorem State.setVF_sp (b : Byte) : (s.setVF b).sp = s.sp := rfl
@[simp] theorem State.setVF_mem (b : Byte) : (s.setVF b).mem = s.mem := rfl
@[simp] theorem State.setVF_keyWaiting (b : Byte) : (s.setVF b).keyWaiting = s.keyWaiting := rfl
@[simp] theorem State.setVF_keyTarget (b : Byte) : (s.setVF b).keyTarget = s.keyTarget := rfl
@[simp] theorem State.setVF_keysObserved (b : Byte) : (s.setVF b).keysObserved = s.keysObserved := rfl
@[simp] theorem State.setVF_fb (b : Byte) : (s.setVF b).fb = s.fb := rfl
@[simp] theorem State.setVF_soundEnable (b : Byte) : (s.setVF b).soundEnable = s.soundEnable := rfl
@[simp] theorem State.setVF_diags (b : Byte) : (s.setVF b).diags = s.diags := rfl
@[simp] theorem State.setVF_cfg (b : Byte) : (s.setVF b).cfg = s.cfg := rfl
@[simp] theorem State.setVF_keys (b : Byte) : (s.setVF b).keys = s.keys := rfl
@[simp] theorem State.setVF_phase (b : Byte) : (s.setVF b).phase = s.phase := rfl
@[simp] theorem State.setVF_keyInputs (b : Byte) : (s.setVF b).keyInputs = s.keyInputs := rfl
@[simp] theorem State.setVF_frameNo (b : Byte) : (s.setVF b).frameNo = s.frameNo := rfl
@[simp] theorem State.setVF_drawInputs (b : Byte) : (s.setVF b).drawInputs = s.drawInputs := rfl
@[simp] theorem State.setVF_drawNo (b : Byte) : (s.setVF b).drawNo = s.drawNo := rfl
@[simp] theorem State.setVF_peek (b : Byte) (q : Nat) : (s.setVF b).peek q = s.peek q := rfl

/-! ### `State.setPc` -/

@[simp] theorem State.setPc_v (w : Word) : (s.setPc w).v = s.v := rfl
@[simp] theorem State.setPc_pc (w : Word) : (s.setPc w).pc = w := rfl
@[simp] theorem State.setPc_i (w : Word) : (s.setPc w).i = s.i := rfl
@[simp] theorem State.setPc_dt (w : Word) : (s.setPc w).dt = s.dt := rfl
@[simp] theorem State.setPc_st (w : Word) : (s.setPc w).st = s.st := rfl
@[simp] theorem State.setPc_stack (w : Word) : (s.setPc w).stack = s.stack := rfl
@[simp] theorem State.setPc_sp (w : Word) : (s.setPc w).sp = s.sp := rfl
@[simp] theorem State.setPc_mem (w : Word) : (s.setPc w).mem = s.mem := rfl
@[simp] theorem State.setPc_keyWaiting (w : Word) : (s.setPc w).keyWaiting = s.keyWaiting := rfl
@[simp] theorem State.setPc_keyTarget (w : Word) : (s.setPc w).keyTarget = s.keyTarget := rfl
@[simp] theorem State.setPc_keysObserved (w : Word) : (s.setPc w).keysObserved = s.keysObserved := rfl
@[simp] theorem State.setPc_fb (w : Word) : (s.setPc w).fb = s.fb := rfl
@[simp] theorem State.setPc_soundEnable (w : Word) : (s.setPc w).soundEnable = s.soundEnable := rfl
@[simp] theorem State.setPc_diags (w : Word) : (s.setPc w).diags = s.diags := rfl
@[simp] theorem State.setPc_cfg (w : Word) : (s.setPc w).cfg = s.cfg := rfl
@[simp] theorem State.setPc_keys (w : Word) : (s.setPc w).keys = s.keys := rfl
@[simp] theorem State.setPc_phase (w : Word) : (s.setPc w).phase = s.phase := rfl
@[simp] theorem State.setPc_keyInputs (w : Word) : (s.setPc w).keyInputs = s.keyInputs := rfl
@[simp] theorem State.setPc_frameNo (w : Word) : (s.setPc w).frameNo = s.frameNo := rfl
@[simp] theorem State.setPc_drawInputs (w : Word) : (s.setPc w).drawInputs = s.drawInputs := rfl
@[simp] theorem State.setPc_drawNo (w : Word) : (s.setPc w).drawNo = s.drawNo := rfl
@[simp] theorem State.setPc_reg (w : Word) (q : RegIdx) : (s.setPc w).reg q = s.reg q := rfl
@[simp] theorem State.setPc_peek (w : Word) (q : Nat) : (s.setPc w).peek q = s.peek q := rfl

/-! ### `State.setI` -/

@[simp] theorem State.setI_v (w : Word) : (s.setI w).v = s.v := rfl
@[simp] theorem State.setI_pc (w : Word) : (s.setI w).pc = s.pc := rfl
@[simp] theorem State.setI_i (w : Word) : (s.setI w).i = w := rfl
@[simp] theorem State.setI_dt (w : Word) : (s.setI w).dt = s.dt := rfl
@[simp] theorem State.setI_st (w : Word) : (s.setI w).st = s.st := rfl
@[simp] theorem State.setI_stack (w : Word) : (s.setI w).stack = s.stack := rfl
@[simp] theorem State.setI_sp (w : Word) : (s.setI w).sp = s.sp := rfl
@[simp] theorem State.setI_mem (w : Word) : (s.setI w).mem = s.mem := rfl
@[simp] theorem State.setI_keyWaiting (w : Word) : (s.setI w).keyWaiting = s.keyWaiting := rfl
@[simp] theorem State.setI_keyTarget (w : Word) : (s.setI w).keyTarget = s.keyTarget := rfl
@[simp] theorem State.setI_keysObserved (w : Word) : (s.setI w).keysObserved = s.keysObserved := rfl
@[simp] theorem State.setI_fb (w : Word) : (s.setI w).fb = s.fb := rfl
@[simp] theorem State.setI_soundEnable (w : Word) : (s.setI w).soundEnable = s.soundEnable := rfl
@[simp] theorem State.setI_diags (w : Word) : (s.setI w).diags = s.diags := rfl
@[simp] theorem State.setI_cfg (w : Word) : (s.setI w).cfg = s.cfg := rfl
@[simp] theorem State.setI_keys (w : Word) : (s.setI w).keys = s.keys := rfl
@[simp] theorem State.setI_phase (w : Word) : (s.setI w).phase = s.phase := rfl
@[simp] theorem State.setI_keyInputs (w : Word) : (s.setI w).keyInputs = s.keyInputs := rfl
@[simp] theorem State.setI_frameNo (w : Word) : (s.setI w).frameNo = s.frameNo := rfl
@[simp] theorem State.setI_drawInputs (w : Word) : (s.setI w).drawInputs = s.drawInputs := rfl
@[simp] theorem State.setI_drawNo (w : Word) : (s.setI w).drawNo = s.drawNo := rfl
@[simp] theorem State.setI_reg (w : Word) (q : RegIdx) : (s.setI w).reg q = s.reg q := rfl
@[simp] theorem State.setI_peek (w : Word) (q : Nat) : (s.setI w).peek q = s.peek q := rfl

/-! ### `State.setDt` -/

@[simp] theorem State.setDt_v (b : Byte) : (s.setDt b).v = s.v := rfl
@[simp] theorem State.setDt_pc (b : Byte) : (s.setDt b).pc = s.pc := rfl
@[simp] theorem State.setDt_i (b : Byte) : (s.setDt b).i = s.i := rfl
@[simp] theorem State.setDt_dt (b : Byte) : (s.setDt b).dt = b := rfl
@[simp] theorem State.setDt_st (b : Byte) : (s.setDt b).st = s.st := rfl
@[simp] theorem State.setDt_stack (b : Byte) : (s.setDt b).stack = s.stack := rfl
@[simp] theorem State.setDt_sp (b : Byte) : (s.setDt b).sp = s.sp := rfl
@[simp] theorem State.setDt_mem (b : Byte) : (s.setDt b).mem = s.mem := rfl
@[simp] theorem State.setDt_keyWaiting (b : Byte) : (s.setDt b).keyWaiting = s.keyWaiting := rfl
@[simp] theorem State.setDt_keyTarget (b : Byte) : (s.setDt b).keyTarget = s.keyTarget := rfl
@[simp] theorem State.setDt_keysObserved (b : Byte) : (s.setDt b).keysObserved = s.keysObserved := rfl
@[simp] theorem State.setDt_fb (b : Byte) : (s.setDt b).fb = s.fb := rfl
@[simp] theorem State.setDt_soundEnable (b : Byte) : (s.setDt b).soundEnable = s.soundEnable := rfl
@[simp] theorem State.setDt_diags (b : Byte) : (s.setDt b).diags = s.diags := rfl
@[simp] theorem State.setDt_cfg (b : Byte) : (s.setDt b).cfg = s.cfg := rfl
@[simp] theorem State.setDt_keys (b : Byte) : (s.setDt b).keys = s.keys := rfl
@[simp] theorem State.setDt_phase (b : Byte) : (s.setDt b).phase = s.phase := rfl
@[simp] theorem State.setDt_keyInputs (b : Byte) : (s.setDt b).keyInputs = s.keyInputs := rfl
@[simp] theorem State.setDt_frameNo (b : Byte) : (s.setDt b).frameNo = s.frameNo := rfl
@[simp] theorem State.setDt_drawInputs (b : Byte) : (s.setDt b).drawInputs = s.drawInputs := rfl
@[simp] theorem State.setDt_drawNo (b : Byte) : (s.setDt b).drawNo = s.drawNo := rfl
@[simp] theorem State.setDt_reg (b : Byte) (q : RegIdx) : (s.setDt b).reg q = s.reg q := rfl
@[simp] theorem State.setDt_peek (b : Byte) (q : Nat) : (s.setDt b).peek q = s.peek q := rfl

/-! ### `State.setSt` -/

@[simp] theorem State.setSt_v (b : Byte) : (s.setSt b).v = s.v := rfl
@[simp] theorem State.setSt_pc (b : Byte) : (s.setSt b).pc = s.pc := rfl
@[simp] theorem State.setSt_i (b : Byte) : (s.setSt b).i = s.i := rfl
@[simp] theorem State.setSt_dt (b : Byte) : (s.setSt b).dt = s.dt := rfl
@[simp] theorem State.setSt_st (b : Byte) : (s.setSt b).st = b := rfl
@[simp] theorem State.setSt_stack (b : Byte) : (s.setSt b).stack = s.stack := rfl
@[simp] theorem State.setSt_sp (b : Byte) : (s.setSt b).sp = s.sp := rfl
@[simp] theorem State.setSt_mem (b : Byte) : (s.setSt b).mem = s.mem := rfl
@[simp] theorem State.setSt_keyWaiting (b : Byte) : (s.setSt b).keyWaiting = s.keyWaiting := rfl
@[simp] theorem State.setSt_keyTarget (b : Byte) : (s.setSt b).keyTarget = s.keyTarget := rfl
@[simp] theorem State.setSt_keysObserved (b : Byte) : (s.setSt b).keysObserved = s.keysObserved := rfl
@[simp] theorem State.setSt_fb (b : Byte) : (s.setSt b).fb = s.fb := rfl
@[simp] theorem State.setSt_soundEnable (b : Byte) : (s.setSt b).soundEnable = s.soundEnable := rfl
@[simp] theorem State.setSt_diags (b : Byte) : (s.setSt b).diags = s.diags := rfl
@[simp] theorem State.setSt_cfg (b : Byte) : (s.setSt b).cfg = s.cfg := rfl
@[simp] theorem State.setSt_keys (b : Byte) : (s.setSt b).keys = s.keys := rfl
@[simp] theorem State.setSt_phase (b : Byte) : (s.setSt b).phase = s.phase := rfl
@[simp] theorem State.setSt_keyInputs (b : Byte) : (s.setSt b).keyInputs = s.keyInputs := rfl
@[simp] theorem State.setSt_frameNo (b : Byte) : (s.setSt b).frameNo = s.frameNo := rfl
@[simp] theorem State.setSt_drawInputs (b : Byte) : (s.setSt b).drawInputs = s.drawInputs := rfl
@[simp] theorem State.setSt_drawNo (b : Byte) : (s.setSt b).drawNo = s.drawNo := rfl
@[simp] theorem State.setSt_reg (b : Byte) (q : RegIdx) : (s.setSt b).reg q = s.reg q := rfl
@[simp] theorem State.setSt_peek (b : Byte) (q : Nat) : (s.setSt b).peek q = s.peek q := rfl

/-! ### `State.setSp` -/

@[simp] theorem State.setSp_v (n : Fin 16) : (s.setSp n).v = s.v := rfl
@[simp] theorem State.setSp_pc (n : Fin 16) : (s.setSp n).pc = s.pc := rfl
@[simp] theorem State.setSp_i (n : Fin 16) : (s.setSp n).i = s.i := rfl
@[simp] theorem State.setSp_dt (n : Fin 16) : (s.setSp n).dt = s.dt := rfl
@[simp] theorem State.setSp_st (n : Fin 16) : (s.setSp n).st = s.st := rfl
@[simp] theorem State.setSp_stack (n : Fin 16) : (s.setSp n).stack = s.stack := rfl
@[simp] theorem State.setSp_sp (n : Fin 16) : (s.setSp n).sp = n := rfl
@[simp] theorem State.setSp_mem (n : Fin 16) : (s.setSp n).mem = s.mem := rfl
@[simp] theorem State.setSp_keyWaiting (n : Fin 16) : (s.setSp n).keyWaiting = s.keyWaiting := rfl
@[simp] theorem State.setSp_keyTarget (n : Fin 16) : (s.setSp n).keyTarget = s.keyTarget := rfl
@[simp] theorem State.setSp_keysObserved (n : Fin 16) : (s.setSp n).keysObserved = s.keysObserved := rfl
@[simp] theorem State.setSp_fb (n : Fin 16) : (s.setSp n).fb = s.fb := rfl
@[simp] theorem State.setSp_soundEnable (n : Fin 16) : (s.setSp n).soundEnable = s.soundEnable := rfl
@[simp] theorem State.setSp_diags (n : Fin 16) : (s.setSp n).diags = s.diags := rfl
@[simp] theorem State.setSp_cfg (n : Fin 16) : (s.setSp n).cfg = s.cfg := rfl
@[simp] theorem State.setSp_keys (n : Fin 16) : (s.setSp n).keys = s.keys := rfl
@[simp] theorem State.setSp_phase (n : Fin 16) : (s.setSp n).phase = s.phase := rfl
@[simp] theorem State.setSp_keyInputs (n : Fin 16) : (s.setSp n).keyInputs = s.keyInputs := rfl
@[simp] theorem State.setSp_frameNo (n : Fin 16) : (s.setSp n).frameNo = s.frameNo := rfl
@[simp] theorem State.setSp_drawInputs (n : Fin 16) : (s.setSp n).drawInputs = s.drawInputs := rfl
@[simp] theorem State.setSp_drawNo (n : Fin 16) : (s.setSp n).drawNo = s.drawNo := rfl
@[simp] theorem State.setSp_reg (n : Fin 16) (q : RegIdx) : (s.setSp n).reg q = s.reg q := rfl
@[simp] theorem State.setSp_peek (n : Fin 16) (q : Nat) : (s.setSp n).peek q = s.peek q := rfl

/-! ### `State.setSlot` -/

@[simp] theorem State.setSlot_v (k : Fin 16) (w : Word) : (s.setSlot k w).v = s.v := rfl
@[simp] theorem State.setSlot_pc (k : Fin 16) (w : Word) : (s.setSlot k w).pc = s.pc := rfl
@[simp] theorem State.setSlot_i (k : Fin 16) (w : Word) : (s.setSlot k w).i = s.i := rfl
@[simp] theorem State.setSlot_dt (k : Fin 16) (w : Word) : (s.setSlot k w).dt = s.dt := rfl
@[simp] theorem State.setSlot_st (k : Fin 16) (w : Word) : (s.setSlot k w).st = s.st := rfl
@[simp] theorem State.setSlot_stack (k : Fin 16) (w : Word) : (s.setSlot k w).stack = s.stack.set k.val w k.isLt := rfl
@[simp] theorem State.setSlot_sp (k : Fin 16) (w : Word) : (s.setSlot k w).sp = s.sp := rfl
@[simp] theorem State.setSlot_mem (k : Fin 16) (w : Word) : (s.setSlot k w).mem = s.mem := rfl
@[simp] theorem State.setSlot_keyWaiting (k : Fin 16) (w : Word) : (s.setSlot k w).keyWaiting = s.keyWaiting := rfl
@[simp] theorem State.setSlot_keyTarget (k : Fin 16) (w : Word) : (s.setSlot k w).keyTarget = s.keyTarget := rfl
@[simp] theorem State.setSlot_keysObserved (k : Fin 16) (w : Word) : (s.setSlot k w).keysObserved = s.keysObserved := rfl
@[simp] theorem State.setSlot_fb (k : Fin 16) (w : Word) : (s.setSlot k w).fb = s.fb := rfl
@[simp] theorem State.setSlot_soundEnable (k : Fin 16) (w : Word) : (s.setSlot k w).soundEnable = s.soundEnable := rfl
@[simp] theorem State.setSlot_diags (k : Fin 16) (w : Word) : (s.setSlot k w).diags = s.diags := rfl
@[simp] theorem State.setSlot_cfg (k : Fin 16) (w : Word) : (s.setSlot k w).cfg = s.cfg := rfl
@[simp] theorem State.setSlot_keys (k : Fin 16) (w : Word) : (s.setSlot k w).keys = s.keys := rfl
@[simp] theorem State.setSlot_phase (k : Fin 16) (w : Word) : (s.setSlot k w).phase = s.phase := rfl
@[simp] theorem State.setSlot_keyInputs (k : Fin 16) (w : Word) : (s.setSlot k w).keyInputs = s.keyInputs := rfl
@[simp] theorem State.setSlot_frameNo (k : Fin 16) (w : Word) : (s.setSlot k w).frameNo = s.frameNo := rfl
@[simp] theorem State.setSlot_drawInputs (k : Fin 16) (w : Word) : (s.setSlot k w).drawInputs = s.drawInputs := rfl
@[simp] theorem State.setSlot_drawNo (k : Fin 16) (w : Word) : (s.setSlot k w).drawNo = s.drawNo := rfl
@[simp] theorem State.setSlot_reg (k : Fin 16) (w : Word) (q : RegIdx) : (s.setSlot k w).reg q = s.reg q := rfl
@[simp] theorem State.setSlot_peek (k : Fin 16) (w : Word) (q : Nat) : (s.setSlot k w).peek q = s.peek q := rfl

/-! ### `State.setMem` -/

@[simp] theorem State.setMem_v (m : Memory) : (s.setMem m).v = s.v := rfl
@[simp] theorem State.setMem_pc (m : Memory) : (s.setMem m).pc = s.pc := rfl
@[simp] theorem State.setMem_i (m : Memory) : (s.setMem m).i = s.i := rfl
@[simp] theorem State.setMem_dt (m : Memory) : (s.setMem m).dt = s.dt := rfl
@[simp] theorem State.setMem_st (m : Memory) : (s.setMem m).st = s.st := rfl
@[simp] theorem State.setMem_stack (m : Memory) : (s.setMem m).stack = s.stack := rfl
@[simp] theorem State.setMem_sp (m : Memory) : (s.setMem m).sp = s.sp := rfl
@[simp] theorem State.setMem_mem (m : Memory) : (s.setMem m).mem = m := rfl
@[simp] theorem State.setMem_keyWaiting (m : Memory) : (s.setMem m).keyWaiting = s.keyWaiting := rfl
@[simp] theorem State.setMem_keyTarget (m : Memory) : (s.setMem m).keyTarget = s.keyTarget := rfl
@[simp] theorem State.setMem_keysObserved (m : Memory) : (s.setMem m).keysObserved = s.keysObserved := rfl
@[simp] theorem State.setMem_fb (m : Memory) : (s.setMem m).fb = s.fb := rfl
@[simp] theorem State.setMem_soundEnable (m : Memory) : (s.setMem m).soundEnable = s.soundEnable := rfl
@[simp] theorem State.setMem_diags (m : Memory) : (s.setMem m).diags = s.diags := rfl
@[simp] theorem State.setMem_cfg (m : Memory) : (s.setMem m).cfg = s.cfg := rfl
@[simp] theorem State.setMem_keys (m : Memory) : (s.setMem m).keys = s.keys := rfl
@[simp] theorem State.setMem_phase (m : Memory) : (s.setMem m).phase = s.phase := rfl
@[simp] theorem State.setMem_keyInputs (m : Memory) : (s.setMem m).keyInputs = s.keyInputs := rfl
@[simp] theorem State.setMem_frameNo (m : Memory) : (s.setMem m).frameNo = s.frameNo := rfl
@[simp] theorem State.setMem_drawInputs (m : Memory) : (s.setMem m).drawInputs = s.drawInputs := rfl
@[simp] theorem State.setMem_drawNo (m : Memory) : (s.setMem m).drawNo = s.drawNo := rfl
@[simp] theorem State.setMem_reg (m : Memory) (q : RegIdx) : (s.setMem m).reg q = s.reg q := rfl

/-! ### `State.setKeyWaiting` -/

@[simp] theorem State.setKeyWaiting_v (b : Bool) : (s.setKeyWaiting b).v = s.v := rfl
@[simp] theorem State.setKeyWaiting_pc (b : Bool) : (s.setKeyWaiting b).pc = s.pc := rfl
@[simp] theorem State.setKeyWaiting_i (b : Bool) : (s.setKeyWaiting b).i = s.i := rfl
@[simp] theorem State.setKeyWaiting_dt (b : Bool) : (s.setKeyWaiting b).dt = s.dt := rfl
@[simp] theorem State.setKeyWaiting_st (b : Bool) : (s.setKeyWaiting b).st = s.st := rfl
@[simp] theorem State.setKeyWaiting_stack (b : Bool) : (s.setKeyWaiting b).stack = s.stack := rfl
@[simp] theorem State.setKeyWaiting_sp (b : Bool) : (s.setKeyWaiting b).sp = s.sp := rfl
@[simp] theorem State.setKeyWaiting_mem (b : Bool) : (s.setKeyWaiting b).mem = s.mem := rfl
@[simp] theorem State.setKeyWaiting_keyWaiting (b : Bool) : (s.setKeyWaiting b).keyWaiting = b := rfl
@[simp] theorem State.setKeyWaiting_keyTarget (b : Bool) : (s.setKeyWaiting b).keyTarget = s.keyTarget := rfl
@[simp] theorem State.setKeyWaiting_keysObserved (b : Bool) : (s.setKeyWaiting b).keysObserved = s.keysObserved := rfl
@[simp] theorem State.setKeyWaiting_fb (b : Bool) : (s.setKeyWaiting b).fb = s.fb := rfl
@[simp] theorem State.setKeyWaiting_soundEnable (b : Bool) : (s.setKeyWaiting b).soundEnable = s.soundEnable := rfl
@[simp] theorem State.setKeyWaiting_diags (b : Bool) : (s.setKeyWaiting b).diags = s.diags := rfl
@[simp] theorem State.setKeyWaiting_cfg (b : Bool) : (s.setKeyWaiting b).cfg = s.cfg := rfl
@[simp] theorem State.setKeyWaiting_keys (b : Bool) : (s.setKeyWaiting b).keys = s.keys := rfl
@[simp] theorem State.setKeyWaiting_phase (b : Bool) : (s.setKeyWaiting b).phase = s.phase := rfl
@[simp] theorem State.setKeyWaiting_keyInputs (b : Bool) : (s.setKeyWaiting b).keyInputs = s.keyInputs := rfl
@[simp] theorem State.setKeyWaiting_frameNo (b : Bool) : (s.setKeyWaiting b).frameNo = s.frameNo := rfl
@[simp] theorem State.setKeyWaiting_drawInputs (b : Bool) : (s.setKeyWaiting b).drawInputs = s.drawInputs := rfl
@[simp] theorem State.setKeyWaiting_drawNo (b : Bool) : (s.setKeyWaiting b).drawNo = s.drawNo := rfl
@[simp] theorem State.setKeyWaiting_reg (b : Bool) (q : RegIdx) : (s.setKeyWaiting b).reg q = s.reg q := rfl
@[simp] theorem State.setKeyWaiting_peek (b : Bool) (q : Nat) : (s.setKeyWaiting b).peek q = s.peek q := rfl

/-! ### `State.setKeyTarget` -/

@[simp] theorem State.setKeyTarget_v (r : RegIdx) : (s.setKeyTarget r).v = s.v := rfl
@[simp] theorem State.setKeyTarget_pc (r : RegIdx) : (s.setKeyTarget r).pc = s.pc := rfl
@[simp] theorem State.setKeyTarget_i (r : RegIdx) : (s.setKeyTarget r).i = s.i := rfl
@[simp] theorem State.setKeyTarget_dt (r : RegIdx) : (s.setKeyTarget r).dt = s.dt := rfl
@[simp] theorem State.setKeyTarget_st (r : RegIdx) : (s.setKeyTarget r).st = s.st := rfl
@[simp] theorem State.setKeyTarget_stack (r : RegIdx) : (s.setKeyTarget r).stack = s.stack := rfl
@[simp] theorem State.setKeyTarget_sp (r : RegIdx) : (s.setKeyTarget r).sp = s.sp := rfl
@[simp] theorem State.setKeyTarget_mem (r : RegIdx) : (s.setKeyTarget r).mem = s.mem := rfl
@[simp] theorem State.setKeyTarget_keyWaiting (r : RegIdx) : (s.setKeyTarget r).keyWaiting = s.keyWaiting := rfl
@[simp] theorem State.setKeyTarget_keyTarget (r : RegIdx) : (s.setKeyTarget r).keyTarget = r := rfl
@[simp] theorem State.setKeyTarget_keysObserved (r : RegIdx) : (s.setKeyTarget r).keysObserved = s.keysObserved := rfl
@[simp] theorem State.setKeyTarget_fb (r : RegIdx) : (s.setKeyTarget r).fb = s.fb := rfl
@[simp] theorem State.setKeyTarget_soundEnable (r : RegIdx) : (s.setKeyTarget r).soundEnable = s.soundEnable := rfl
@[simp] theorem State.setKeyTarget_diags (r : RegIdx) : (s.setKeyTarget r).diags = s.diags := rfl
@[simp] theorem State.setKeyTarget_cfg (r : RegIdx) : (s.setKeyTarget r).cfg = s.cfg := rfl
@[simp] theorem State.setKeyTarget_keys (r : RegIdx) : (s.setKeyTarget r).keys = s.keys := rfl
@[simp] theorem State.setKeyTarget_phase (r : RegIdx) : (s.setKeyTarget r).phase = s.phase := rfl
@[simp] theorem State.setKeyTarget_keyInputs (r : RegIdx) : (s.setKeyTarget r).keyInputs = s.keyInputs := rfl
@[simp] theorem State.setKeyTarget_frameNo (r : RegIdx) : (s.setKeyTarget r).frameNo = s.frameNo := rfl
@[simp] theorem State.setKeyTarget_drawInputs (r : RegIdx) : (s.setKeyTarget r).drawInputs = s.drawInputs := rfl
@[simp] theorem State.setKeyTarget_drawNo (r : RegIdx) : (s.setKeyTarget r).drawNo = s.drawNo := rfl
@[simp] theorem State.setKeyTarget_reg (r : RegIdx) (q : RegIdx) : (s.setKeyTarget r).reg q = s.reg q := rfl
@[simp] theorem State.setKeyTarget_peek (r : RegIdx) (q : Nat) : (s.setKeyTarget r).peek q = s.peek q := rfl

/-! ### `State.setKeysObserved` -/

@[simp] theorem State.setKeysObserved_v (k : Keys) : (s.setKeysObserved k).v = s.v := rfl
@[simp] theorem State.setKeysObserved_pc (k : Keys) : (s.setKeysObserved k).pc = s.pc := rfl
@[simp] theorem State.setKeysObserved_i (k : Keys) : (s.setKeysObserved k).i = s.i := rfl
@[simp] theorem State.setKeysObserved_dt (k : Keys) : (s.setKeysObserved k).dt = s.dt := rfl
@[simp] theorem State.setKeysObserved_st (k : Keys) : (s.setKeysObserved k).st = s.st := rfl
@[simp] theorem State.setKeysObserved_stack (k : Keys) : (s.setKeysObserved k).stack = s.stack := rfl
@[simp] theorem State.setKeysObserved_sp (k : Keys) : (s.setKeysObserved k).sp = s.sp := rfl
@[simp] theorem State.setKeysObserved_mem (k : Keys) : (s.setKeysObserved k).mem = s.mem := rfl
@[simp] theorem State.setKeysObserved_keyWaiting (k : Keys) : (s.setKeysObserved k).keyWaiting = s.keyWaiting := rfl
@[simp] theorem State.setKeysObserved_keyTarget (k : Keys) : (s.setKeysObserved k).keyTarget = s.keyTarget := rfl
@[simp] theorem State.setKeysObserved_keysObserved (k : Keys) : (s.setKeysObserved k).keysObserved = k := rfl
@[simp] theorem State.setKeysObserved_fb (k : Keys) : (s.setKeysObserved k).fb = s.fb := rfl
@[simp] theorem State.setKeysObserved_soundEnable (k : Keys) : (s.setKeysObserved k).soundEnable = s.soundEnable := rfl
@[simp] theorem State.setKeysObserved_diags (k : Keys) : (s.setKeysObserved k).diags = s.diags := rfl
@[simp] theorem State.setKeysObserved_cfg (k : Keys) : (s.setKeysObserved k).cfg = s.cfg := rfl
@[simp] theorem State.setKeysObserved_keys (k : Keys) : (s.setKeysObserved k).keys = s.keys := rfl
@[simp] theorem State.setKeysObserved_phase (k : Keys) : (s.setKeysObserved k).phase = s.phase := rfl
@[simp] theorem State.setKeysObserved_keyInputs (k : Keys) : (s.setKeysObserved k).keyInputs = s.keyInputs := rfl
@[simp] theorem State.setKeysObserved_frameNo (k : Keys) : (s.setKeysObserved k).frameNo = s.frameNo := rfl
@[simp] theorem State.setKeysObserved_drawInputs (k : Keys) : (s.setKeysObserved k).drawInputs = s.drawInputs := rfl
@[simp] theorem State.setKeysObserved_drawNo (k : Keys) : (s.setKeysObserved k).drawNo = s.drawNo := rfl
@[simp] theorem State.setKeysObserved_reg (k : Keys) (q : RegIdx) : (s.setKeysObserved k).reg q = s.reg q := rfl
@[simp] theorem State.setKeysObserved_peek (k : Keys) (q : Nat) : (s.setKeysObserved k).peek q = s.peek q := rfl

/-! ### `State.setFb` -/

@[simp] theorem State.setFb_v (f : Framebuffer) : (s.setFb f).v = s.v := rfl
@[simp] theorem State.setFb_pc (f : Framebuffer) : (s.setFb f).pc = s.pc := rfl
@[simp] theorem State.setFb_i (f : Framebuffer) : (s.setFb f).i = s.i := rfl
@[simp] theorem State.setFb_dt (f : Framebuffer) : (s.setFb f).dt = s.dt := rfl
@[simp] theorem State.setFb_st (f : Framebuffer) : (s.setFb f).st = s.st := rfl
@[simp] theorem State.setFb_stack (f : Framebuffer) : (s.setFb f).stack = s.stack := rfl
@[simp] theorem State.setFb_sp (f : Framebuffer) : (s.setFb f).sp = s.sp := rfl
@[simp] theorem State.setFb_mem (f : Framebuffer) : (s.setFb f).mem = s.mem := rfl
@[simp] theorem State.setFb_keyWaiting (f : Framebuffer) : (s.setFb f).keyWaiting = s.keyWaiting := rfl
@[simp] theorem State.setFb_keyTarget (f : Framebuffer) : (s.setFb f).keyTarget = s.keyTarget := rfl
@[simp] theorem State.setFb_keysObserved (f : Framebuffer) : (s.setFb f).keysObserved = s.keysObserved := rfl
@[simp] theorem State.setFb_fb (f : Framebuffer) : (s.setFb f).fb = f := rfl
@[simp] theorem State.setFb_soundEnable (f : Framebuffer) : (s.setFb f).soundEnable = s.soundEnable := rfl
@[simp] theorem State.setFb_diags (f : Framebuffer) : (s.setFb f).diags = s.diags := rfl
@[simp] theorem State.setFb_cfg (f : Framebuffer) : (s.setFb f).cfg = s.cfg := rfl
@[simp] theorem State.setFb_keys (f : Framebuffer) : (s.setFb f).keys = s.keys := rfl
@[simp] theorem State.setFb_phase (f : Framebuffer) : (s.setFb f).phase = s.phase := rfl
@[simp] theorem State.setFb_keyInputs (f : Framebuffer) : (s.setFb f).keyInputs = s.keyInputs := rfl
@[simp] theorem State.setFb_frameNo (f : Framebuffer) : (s.setFb f).frameNo = s.frameNo := rfl
@[simp] theorem State.setFb_drawInputs (f : Framebuffer) : (s.setFb f).drawInputs = s.drawInputs := rfl
@[simp] theorem State.setFb_drawNo (f : Framebuffer) : (s.setFb f).drawNo = s.drawNo := rfl
@[simp] theorem State.setFb_reg (f : Framebuffer) (q : RegIdx) : (s.setFb f).reg q = s.reg q := rfl
@[simp] theorem State.setFb_peek (f : Framebuffer) (q : Nat) : (s.setFb f).peek q = s.peek q := rfl

/-! ### `State.setSoundEnable` -/

@[simp] theorem State.setSoundEnable_v (b : Bool) : (s.setSoundEnable b).v = s.v := rfl
@[simp] theorem State.setSoundEnable_pc (b : Bool) : (s.setSoundEnable b).pc = s.pc := rfl
@[simp] theorem State.setSoundEnable_i (b : Bool) : (s.setSoundEnable b).i = s.i := rfl
@[simp] theorem State.setSoundEnable_dt (b : Bool) : (s.setSoundEnable b).dt = s.dt := rfl
@[simp] theorem State.setSoundEnable_st (b : Bool) : (s.setSoundEnable b).st = s.st := rfl
@[simp] theorem State.setSoundEnable_stack (b : Bool) : (s.setSoundEnable b).stack = s.stack := rfl
@[simp] theorem State.setSoundEnable_sp (b : Bool) : (s.setSoundEnable b).sp = s.sp := rfl
@[simp] theorem State.setSoundEnable_mem (b : Bool) : (s.setSoundEnable b).mem = s.mem := rfl
@[simp] theorem State.setSoundEnable_keyWaiting (b : Bool) : (s.setSoundEnable b).keyWaiting = s.keyWaiting := rfl
@[simp] theorem State.setSoundEnable_keyTarget (b : Bool) : (s.setSoundEnable b).keyTarget = s.keyTarget := rfl
@[simp] theorem State.setSoundEnable_keysObserved (b : Bool) : (s.setSoundEnable b).keysObserved = s.keysObserved := rfl
@[simp] theorem State.setSoundEnable_fb (b : Bool) : (s.setSoundEnable b).fb = s.fb := rfl
@[simp] theorem State.setSoundEnable_soundEnable (b : Bool) : (s.setSoundEnable b).soundEnable = b := rfl
@[simp] theorem State.setSoundEnable_diags (b : Bool) : (s.setSoundEnable b).diags = s.diags := rfl
@[simp] theorem State.setSoundEnable_cfg (b : Bool) : (s.setSoundEnable b).cfg = s.cfg := rfl
@[simp] theorem State.setSoundEnable_keys (b : Bool) : (s.setSoundEnable b).keys = s.keys := rfl
@[simp] theorem State.setSoundEnable_phase (b : Bool) : (s.setSoundEnable b).phase = s.phase := rfl
@[simp] theorem State.setSoundEnable_keyInputs (b : Bool) : (s.setSoundEnable b).keyInputs = s.keyInputs := rfl
@[simp] theorem State.setSoundEnable_frameNo (b : Bool) : (s.setSoundEnable b).frameNo = s.frameNo := rfl
@[simp] theorem State.setSoundEnable_drawInputs (b : Bool) : (s.setSoundEnable b).drawInputs = s.drawInputs := rfl
@[simp] theorem State.setSoundEnable_drawNo (b : Bool) : (s.setSoundEnable b).drawNo = s.drawNo := rfl
@[simp] theorem State.setSoundEnable_reg (b : Bool) (q : RegIdx) : (s.setSoundEnable b).reg q = s.reg q := rfl
@[simp] theorem State.setSoundEnable_peek (b : Bool) (q : Nat) : (s.setSoundEnable b).peek q = s.peek q := rfl

/-! ### `State.addDiag` -/

@[simp] theorem State.addDiag_v (d : Diag) : (s.addDiag d).v = s.v := rfl
@[simp] theorem State.addDiag_pc (d : Diag) : (s.addDiag d).pc = s.pc := rfl
@[simp] theorem State.addDiag_i (d : Diag) : (s.addDiag d).i = s.i := rfl
@[simp] theorem State.addDiag_dt (d : Diag) : (s.addDiag d).dt = s.dt := rfl
@[simp] theorem State.addDiag_st (d : Diag) : (s.addDiag d).st = s.st := rfl
@[simp] theorem State.addDiag_stack (d : Diag) : (s.addDiag d).stack = s.stack := rfl
@[simp] theorem State.addDiag_sp (d : Diag) : (s.addDiag d).sp = s.sp := rfl
@[simp] theorem State.addDiag_mem (d : Diag) : (s.addDiag d).mem = s.mem := rfl
@[simp] theorem State.addDiag_keyWaiting (d : Diag) : (s.addDiag d).keyWaiting = s.keyWaiting := rfl
@[simp] theorem State.addDiag_keyTarget (d : Diag) : (s.addDiag d).keyTarget = s.keyTarget := rfl
@[simp] theorem State.addDiag_keysObserved (d : Diag) : (s.addDiag d).keysObserved = s.keysObserved := rfl
@[simp] theorem State.addDiag_fb (d : Diag) : (s.addDiag d).fb = s.fb := rfl
@[simp] theorem State.addDiag_soundEnable (d : Diag) : (s.addDiag d).soundEnable = s.soundEnable := rfl
@[simp] theorem State.addDiag_diags (d : Diag) : (s.addDiag d).diags = d :: s.diags := rfl
@[simp] theorem State.addDiag_cfg (d : Diag) : (s.addDiag d).cfg = s.cfg := rfl
@[simp] theorem State.addDiag_keys (d : Diag) : (s.addDiag d).keys = s.keys := rfl
@[simp] theorem State.addDiag_phase (d : Diag) : (s.addDiag d).phase = s.phase := rfl
@[simp] theorem State.addDiag_keyInputs (d : Diag) : (s.addDiag d).keyInputs = s.keyInputs := rfl
@[simp] theorem State.addDiag_frameNo (d : Diag) : (s.addDiag d).frameNo = s.frameNo := rfl
@[simp] theorem State.addDiag_drawInputs (d : Diag) : (s.addDiag d).drawInputs = s.drawInputs := rfl
@[simp] theorem State.addDiag_drawNo (d : Diag) : (s.addDiag d).drawNo = s.drawNo := rfl
@[simp] theorem State.addDiag_reg (d : Diag) (q : RegIdx) : (s.addDiag d).reg q = s.reg q := rfl
@[simp] theorem State.addDiag_peek (d : Diag) (q : Nat) : (s.addDiag d).peek q = s.peek q := rfl

/-! ### `State.setKeys` -/

@[simp] theorem State.setKeys_v (k : Keys) : (s.setKeys k).v = s.v := rfl
@[simp] theorem State.setKeys_pc (k : Keys) : (s.setKeys k).pc = s.pc := rfl
@[simp] theorem State.setKeys_i (k : Keys) : (s.setKeys k).i = s.i := rfl
@[simp] theorem State.setKeys_dt (k : Keys) : (s.setKeys k).dt = s.dt := rfl
@[simp] theorem State.setKeys_st (k : Keys) : (s.setKeys k).st = s.st := rfl
@[simp] theorem State.setKeys_stack (k : Keys) : (s.setKeys k).stack = s.stack := rfl
@[simp] theorem State.setKeys_sp (k : Keys) : (s.setKeys k).sp = s.sp := rfl
@[simp] theorem State.setKeys_mem (k : Keys) : (s.setKeys k).mem = s.mem := rfl
@[simp] theorem State.setKeys_keyWaiting (k : Keys) : (s.setKeys k).keyWaiting = s.keyWaiting := rfl
@[simp] theorem State.setKeys_keyTarget (k : Keys) : (s.setKeys k).keyTarget = s.keyTarget := rfl
@[simp] theorem State.setKeys_keysObserved (k : Keys) : (s.setKeys k).keysObserved = s.keysObserved := rfl
@[simp] theorem State.setKeys_fb (k : Keys) : (s.setKeys k).fb = s.fb := rfl
@[simp] theorem State.setKeys_soundEnable (k : Keys) : (s.setKeys k).soundEnable = s.soundEnable := rfl
@[simp] theorem State.setKeys_diags (k : Keys) : (s.setKeys k).diags = s.diags := rfl
@[simp] theorem State.setKeys_cfg (k : Keys) : (s.setKeys k).cfg = s.cfg := rfl
@[simp] theorem State.setKeys_keys (k : Keys) : (s.setKeys k).keys = k := rfl
@[simp] theorem State.setKeys_phase (k : Keys) : (s.setKeys k).phase = s.phase := rfl
@[simp] theorem State.setKeys_keyInputs (k : Keys) : (s.setKeys k).keyInputs = s.keyInputs := rfl
@[simp] theorem State.setKeys_frameNo (k : Keys) : (s.setKeys k).frameNo = s.frameNo := rfl
@[simp] theorem State.setKeys_drawInputs (k : Keys) : (s.setKeys k).drawInputs = s.drawInputs := rfl
@[simp] theorem State.setKeys_drawNo (k : Keys) : (s.setKeys k).drawNo = s.drawNo := rfl
@[simp] theorem State.setKeys_reg (k : Keys) (q : RegIdx) : (s.setKeys k).reg q = s.reg q := rfl
@[simp] theorem State.setKeys_peek (k : Keys) (q : Nat) : (s.setKeys k).peek q = s.peek q := rfl

/-! ### `State.setPhase` -/

@[simp] theorem State.setPhase_v (p : Phase) : (s.setPhase p).v = s.v := rfl
@[simp] theorem State.setPhase_pc (p : Phase) : (s.setPhase p).pc = s.pc := rfl
@[simp] theorem State.setPhase_i (p : Phase) : (s.setPhase p).i = s.i := rfl
@[simp] theorem State.setPhase_dt (p : Phase) : (s.setPhase p).dt = s.dt := rfl
@[simp] theorem State.setPhase_st (p : Phase) : (s.setPhase p).st = s.st := rfl
@[simp] theorem State.setPhase_stack (p : Phase) : (s.setPhase p).stack = s.stack := rfl
@[simp] theorem State.setPhase_sp (p : Phase) : (s.setPhase p).sp = s.sp := rfl
@[simp] theorem State.setPhase_mem (p : Phase) : (s.setPhase p).mem = s.mem := rfl
@[simp] theorem State.setPhase_keyWaiting (p : Phase) : (s.setPhase p).keyWaiting = s.keyWaiting := rfl
@[simp] theorem State.setPhase_keyTarget (p : Phase) : (s.setPhase p).keyTarget = s.keyTarget := rfl
@[simp] theorem State.setPhase_keysObserved (p : Phase) : (s.setPhase p).keysObserved = s.keysObserved := rfl
@[simp] theorem State.setPhase_fb (p : Phase) : (s.setPhase p).fb = s.fb := rfl
@[simp] theorem State.setPhase_soundEnable (p : Phase) : (s.setPhase p).soundEnable = s.soundEnable := rfl
@[simp] theorem State.setPhase_diags (p : Phase) : (s.setPhase p).diags = s.diags := rfl
@[simp] theorem State.setPhase_cfg (p : Phase) : (s.setPhase p).cfg = s.cfg := rfl
@[simp] theorem State.setPhase_keys (p : Phase) : (s.setPhase p).keys = s.keys := rfl
@[simp] theorem State.setPhase_phase (p : Phase) : (s.setPhase p).phase = p := rfl
@[simp] theorem State.setPhase_keyInputs (p : Phase) : (s.setPhase p).keyInputs = s.keyInputs := rfl
@[simp] theorem State.setPhase_frameNo (p : Phase) : (s.setPhase p).frameNo = s.frameNo := rfl
@[simp] theorem State.setPhase_drawInputs (p : Phase) : (s.setPhase p).drawInputs = s.drawInputs := rfl
@[simp] theorem State.setPhase_drawNo (p : Phase) : (s.setPhase p).drawNo = s.drawNo := rfl
@[simp] theorem State.setPhase_reg (p : Phase) (q : RegIdx) : (s.setPhase p).reg q = s.reg q := rfl
@[simp] theorem State.setPhase_peek (p : Phase) (q : Nat) : (s.setPhase p).peek q = s.peek q := rfl

/-! ### `State.takeKeys` -/

@[simp] theorem State.takeKeys_v : (s.takeKeys).v = s.v := rfl
@[simp] theorem State.takeKeys_pc : (s.takeKeys).pc = s.pc := rfl
@[simp] theorem State.takeKeys_i : (s.takeKeys).i = s.i := rfl
@[simp] theorem State.takeKeys_dt : (s.takeKeys).dt = s.dt := rfl
@[simp] theorem State.takeKeys_st : (s.takeKeys).st = s.st := rfl
@[simp] theorem State.takeKeys_stack : (s.takeKeys).stack = s.stack := rfl
@[simp] theorem State.takeKeys_sp : (s.takeKeys).sp = s.sp := rfl
@[simp] theorem State.takeKeys_mem : (s.takeKeys).mem = s.mem := rfl
@[simp] theorem State.takeKeys_keyWaiting : (s.takeKeys).keyWaiting = s.keyWaiting := rfl
@[simp] theorem State.takeKeys_keyTarget : (s.takeKeys).keyTarget = s.keyTarget := rfl
@[simp] theorem State.takeKeys_keysObserved : (s.takeKeys).keysObserved = s.keysObserved := rfl
@[simp] theorem State.takeKeys_fb : (s.takeKeys).fb = s.fb := rfl
@[simp] theorem State.takeKeys_soundEnable : (s.takeKeys).soundEnable = s.soundEnable := rfl
@[simp] theorem State.takeKeys_diags : (s.takeKeys).diags = s.diags := rfl
@[simp] theorem State.takeKeys_cfg : (s.takeKeys).cfg = s.cfg := rfl
@[simp] theorem State.takeKeys_keys : (s.takeKeys).keys = s.nextKeys := rfl
@[simp] theorem State.takeKeys_phase : (s.takeKeys).phase = s.phase := rfl
@[simp] theorem State.takeKeys_keyInputs : (s.takeKeys).keyInputs = s.keyInputs.tail := rfl
@[simp] theorem State.takeKeys_frameNo : (s.takeKeys).frameNo = s.frameNo + 1 := rfl
@[simp] theorem State.takeKeys_drawInputs : (s.takeKeys).drawInputs = s.drawInputs := rfl
@[simp] theorem State.takeKeys_drawNo : (s.takeKeys).drawNo = s.drawNo := rfl
@[simp] theorem State.takeKeys_reg (q : RegIdx) : (s.takeKeys).reg q = s.reg q := rfl
@[simp] theorem State.takeKeys_peek (q : Nat) : (s.takeKeys).peek q = s.peek q := rfl

/-! ### `State.takeDraw` -/

@[simp] theorem State.takeDraw_v : (s.takeDraw).v = s.v := rfl
@[simp] theorem State.takeDraw_pc : (s.takeDraw).pc = s.pc := rfl
@[simp] theorem State.takeDraw_i : (s.takeDraw).i = s.i := rfl
@[simp] theorem State.takeDraw_dt : (s.takeDraw).dt = s.dt := rfl
@[simp] theorem State.takeDraw_st : (s.takeDraw).st = s.st := rfl
@[simp] theorem State.takeDraw_stack : (s.takeDraw).stack = s.stack := rfl
@[simp] theorem State.takeDraw_sp : (s.takeDraw).sp = s.sp := rfl
@[simp] theorem State.takeDraw_mem : (s.takeDraw).mem = s.mem := rfl
@[simp] theorem State.takeDraw_keyWaiting : (s.takeDraw).keyWaiting = s.keyWaiting := rfl
@[simp] theorem State.takeDraw_keyTarget : (s.takeDraw).keyTarget = s.keyTarget := rfl
@[simp] theorem State.takeDraw_keysObserved : (s.takeDraw).keysObserved = s.keysObserved := rfl
@[simp] theorem State.takeDraw_fb : (s.takeDraw).fb = s.fb := rfl
@[simp] theorem State.takeDraw_soundEnable : (s.takeDraw).soundEnable = s.soundEnable := rfl
@[simp] theorem State.takeDraw_diags : (s.takeDraw).diags = s.diags := rfl
@[simp] theorem State.takeDraw_cfg : (s.takeDraw).cfg = s.cfg := rfl
@[simp] theorem State.takeDraw_keys : (s.takeDraw).keys = s.keys := rfl
@[simp] theorem State.takeDraw_phase : (s.takeDraw).phase = s.phase := rfl
@[simp] theorem State.takeDraw_keyInputs : (s.takeDraw).keyInputs = s.keyInputs := rfl
@[simp] theorem State.takeDraw_frameNo : (s.takeDraw).frameNo = s.frameNo := rfl
@[simp] theorem State.takeDraw_drawInputs : (s.takeDraw).drawInputs = s.drawInputs.tail := rfl
@[simp] theorem State.takeDraw_drawNo : (s.takeDraw).drawNo = s.drawNo + 1 := rfl
@[simp] theorem State.takeDraw_reg (q : RegIdx) : (s.takeDraw).reg q = s.reg q := rfl
@[simp] theorem State.takeDraw_peek (q : Nat) : (s.takeDraw).peek q = s.peek q := rfl

end fields

/-! ### Registers -/

theorem State.setVF_eq (s : State) (b : Byte) : s.setVF b = s.setReg regF b := rfl

/-- Reading a register after a write: the written one has the new value, every other its old one. -/
theorem State.reg_setReg (s : State) (r q : RegIdx) (b : Byte) :
    (s.setReg r b).reg q = if q = r then b else s.reg q := by
  unfold State.reg State.setReg
  by_cases h : q = r
  · subst h; simp
  · have : r.val ≠ q.val := fun e => h (Fin.ext e.symm)
    simp [h, Vector.getElem_set_ne _ _ this]

@[simp] theorem State.reg_setReg_self (s : State) (r : RegIdx) (b : Byte) : (s.setReg r b).reg r = b := by
  simp [State.reg_setReg]

theorem State.reg_setVF (s : State) (q : RegIdx) (b : Byte) :
    (s.setVF b).reg q = if q = 15 then b else s.reg q := State.reg_setReg s 15 q b

/-- Two states with the same registers one by one have the same register file. -/
theorem State.v_ext {s t : State} (h : ∀ r, s.reg r = t.reg r) : s.v = t.v := by
  apply Vector.ext
  intro k hk
  exact h ⟨k, hk⟩

/-! ### The stack -/

/-- Reading a stack slot after a write to one. -/
theorem State.slot_setSlot (s : State) (k q : Fin 16) (w : Word) :
    (s.setSlot k w).stack[q.val] = if q = k then w else s.stack[q.val] := by
  by_cases h : q = k
  · subst h; simp
  · have : k.val ≠ q.val := fun e => h (Fin.ext e.symm)
    simp [h, Vector.getElem_set_ne _ _ this]

/-! ### The framebuffer -/

/-- Reading a pixel after a write to one. -/
theorem fbGet_fbSet (f : Framebuffer) (c d : Fin 64) (r q : Fin 32) (b : Bool) :
    fbGet (fbSet f c r b) d q = if q = r ∧ d = c then b else fbGet f d q := by
  unfold fbGet fbSet
  by_cases h : q = r
  · subst h
    by_cases hd : d = c
    · subst hd; simp
    · have : c.val ≠ d.val := fun e => hd (Fin.ext e.symm)
      simp [hd, Vector.getElem_set_ne _ _ this]
  · have : r.val ≠ q.val := fun e => h (Fin.ext e.symm)
    simp [h, Vector.getElem_set_ne _ _ this]

@[simp] theorem fbGet_fbClear (c : Fin 64) (r : Fin 32) : fbGet fbClear c r = false := by
  simp [fbGet, fbClear]

/-- Two grids with the same pixels are the same grid. -/
theorem fb_ext {f g : Framebuffer} (h : ∀ c r, fbGet f c r = fbGet g c r) : f = g := by
  apply Vector.ext
  intro r hr
  apply Vector.ext
  intro c hc
  exact h ⟨c, hc⟩ ⟨r, hr⟩

end Sys2Proof.Machine
end

