-- ==== Sys2Proof/Laws/Memory.lean ====
section
/-! SUPPORT. Laws/Memory.lean: the canonical list (read after write, every write keeps the form) and the memory
primitives of R42 and R43 with everything they can do. -/

namespace Sys2Proof.Machine

/-! ### The list -/

theorem Memory.read_insert (font : Font) (m : Memory) (a c : Nat) (b : Byte) :
    Memory.read font (Memory.insert m a b) c = if a = c then b else Memory.read font m c := by
  induction m with
  | nil => simp [Memory.insert, Memory.read]
  | cons p rest ih =>
    obtain ⟨k, d⟩ := p
    unfold Memory.insert
    by_cases h1 : a < k
    · simp [h1, Memory.read]
    · by_cases h2 : a = k
      · subst h2; by_cases h3 : a = c <;> simp [Memory.read, h3]
      · simp only [h1, h2, if_false, Memory.read, ih]
        by_cases h3 : a = c
        · subst h3; simp [Ne.symm h2]
        · simp [h3]

theorem Memory.mem_insert {m : Memory} {a : Nat} {b : Byte} {c : Host.Cell} (h : c ∈ Memory.insert m a b) :
    c = (a, b) ∨ c ∈ m := by
  induction m with
  | nil => simpa [Memory.insert] using h
  | cons p rest ih =>
    obtain ⟨k, d⟩ := p
    unfold Memory.insert at h
    split at h
    · simpa using h
    · split at h
      · rcases List.mem_cons.1 h with h | h
        · exact .inl h
        · exact .inr (List.mem_cons_of_mem _ h)
      · rcases List.mem_cons.1 h with h | h
        · exact .inr (h ▸ List.mem_cons_self ..)
        · exact (ih h).imp id (List.mem_cons_of_mem _)

theorem Memory.mem_erase {m : Memory} {a : Nat} {c : Host.Cell} (h : c ∈ Memory.erase m a) : c ∈ m := by
  induction m with
  | nil => simp [Memory.erase] at h
  | cons p rest ih =>
    obtain ⟨k, d⟩ := p
    unfold Memory.erase at h
    split at h
    · exact List.mem_cons_of_mem _ h
    · rcases List.mem_cons.1 h with h | h
      · exact h ▸ List.mem_cons_self ..
      · exact List.mem_cons_of_mem _ (ih h)

/-- An address that no entry has reads as unlisted. -/
theorem Memory.read_of_not_mem (font : Font) (m : Memory) (a : Nat) (h : ∀ c ∈ m, c.1 ≠ a) :
    Memory.read font m a = Memory.unlisted font a := by
  induction m with
  | nil => rfl
  | cons p rest ih =>
    simp only [Memory.read, h p (List.mem_cons_self ..), if_false]
    exact ih fun c hc => h c (List.mem_cons_of_mem _ hc)

theorem Memory.read_erase (font : Font) (m : Memory) (a c : Nat) (hm : m.Pairwise (fun p q => p.1 < q.1)) :
    Memory.read font (Memory.erase m a) c =
      if a = c then Memory.unlisted font a else Memory.read font m c := by
  induction m with
  | nil => by_cases h : a = c <;> simp [Memory.erase, Memory.read, h]
  | cons p rest ih =>
    obtain ⟨k, d⟩ := p
    have hr := List.pairwise_cons.1 hm
    unfold Memory.erase
    by_cases h1 : k = a
    · subst h1
      by_cases h2 : k = c
      · subst h2
        simp only [if_true]
        exact Memory.read_of_not_mem font rest k fun c hc => Nat.ne_of_gt (hr.1 c hc)
      · simp [Memory.read, h2]
    · simp only [h1, if_false, Memory.read, ih hr.2]
      by_cases h2 : a = c
      · subst h2; simp [h1]
      · simp [h2]

theorem Memory.insert_pairwise {m : Memory} (a : Nat) (b : Byte) (hm : m.Pairwise (fun p q => p.1 < q.1)) :
    (Memory.insert m a b).Pairwise (fun p q => p.1 < q.1) := by
  induction m with
  | nil => simp [Memory.insert]
  | cons p rest ih =>
    obtain ⟨k, d⟩ := p
    have hr := List.pairwise_cons.1 hm
    unfold Memory.insert
    by_cases h1 : a < k
    · simp only [h1, if_true]
      refine List.pairwise_cons.2 ⟨fun q hq => ?_, hm⟩
      rcases List.mem_cons.1 hq with rfl | hq
      · exact h1
      · exact Nat.lt_trans h1 (hr.1 q hq)
    · by_cases h2 : a = k
      · simp only [h2, if_false, if_true, Nat.lt_irrefl]
        exact List.pairwise_cons.2 ⟨hr.1, hr.2⟩
      · simp only [h1, h2, if_false]
        refine List.pairwise_cons.2 ⟨fun q hq => ?_, ih hr.2⟩
        rcases Memory.mem_insert hq with rfl | hq
        · show k < a; omega
        · exact hr.1 q hq

theorem Memory.erase_pairwise {m : Memory} (a : Nat) (hm : m.Pairwise (fun p q => p.1 < q.1)) :
    (Memory.erase m a).Pairwise (fun p q => p.1 < q.1) := by
  induction m with
  | nil => simp [Memory.erase]
  | cons p rest ih =>
    obtain ⟨k, d⟩ := p
    have hr := List.pairwise_cons.1 hm
    unfold Memory.erase
    split
    · exact hr.2
    · exact List.pairwise_cons.2 ⟨fun q hq => hr.1 q (Memory.mem_erase hq), ih hr.2⟩

/-- The empty list is in the canonical form. -/
theorem Memory.wf_nil (font : Font) : Memory.wf font [] := by simp [Memory.wf]

/-- A write below 4096 keeps the canonical form. -/
theorem Memory.wf_write (font : Font) (m : Memory) (a : Nat) (b : Byte) (ha : a < memSize)
    (hm : Memory.wf font m) : Memory.wf font (Memory.write font m a b) := by
  unfold Memory.write
  split
  · exact ⟨Memory.erase_pairwise a hm.1, fun c hc => hm.2 c (Memory.mem_erase hc)⟩
  · next hb =>
    refine ⟨Memory.insert_pairwise a b hm.1, fun c hc => ?_⟩
    rcases Memory.mem_insert hc with rfl | hc
    · exact ⟨ha, hb⟩
    · exact hm.2 c hc

/-- Read after write on a rising list. -/
theorem Memory.read_write (font : Font) (m : Memory) (a c : Nat) (b : Byte)
    (hm : m.Pairwise (fun p q => p.1 < q.1)) :
    Memory.read font (Memory.write font m a b) c = if a = c then b else Memory.read font m c := by
  unfold Memory.write
  split
  · next hb => rw [Memory.read_erase font m a c hm, hb]
  · exact Memory.read_insert font m a c b

/-! ### Reset content -/

theorem reset_memory_wf (font : Font) : Memory.wf font State.reset.mem := Memory.wf_nil font

/-! ### The primitives -/

/-- `MemWrite` changes memory and the diagnostics, nothing else (R43). -/
theorem memWrite_only (a : Nat) (b : Byte) (s : State) :
    memWrite a b s = { s with mem := (memWrite a b s).mem, diags := (memWrite a b s).diags } := by
  unfold memWrite; split <;> rfl

/-- `MemWrite` records one `MEM_WRITE_OOR` out of range and nothing in range (R43). -/
theorem memWrite_diags (a : Nat) (b : Byte) (s : State) :
    (memWrite a b s).diags = if a < memSize then s.diags else .memWriteOor :: s.diags := by
  unfold memWrite; split <;> rfl

/-- `MemWrite` keeps the canonical form. -/
theorem memWrite_wf (a : Nat) (b : Byte) (s : State) (hm : Memory.wf s.cfg.font s.mem) :
    Memory.wf (memWrite a b s).cfg.font (memWrite a b s).mem := by
  unfold memWrite
  split
  · next h => exact Memory.wf_write _ _ _ _ h hm
  · exact hm

/-- A byte read after `MemWrite`: the written byte where it landed, the old byte elsewhere (R42, R43, R52). -/
theorem peek_memWrite (a c : Nat) (b : Byte) (s : State) (hm : Memory.wf s.cfg.font s.mem) :
    (memWrite a b s).peek c = if a = c ∧ a < memSize then b else s.peek c := by
  unfold memWrite
  by_cases h : a < memSize
  · simp only [h, if_true, and_true, State.peek, State.setMem_mem, State.setMem_cfg]
    rw [Memory.read_write _ _ _ _ _ hm.1]
    by_cases h2 : a = c
    · subst h2; simp [h]
    · simp [h2]
  · simp [h]

/-- `memWriteList` changes memory and the diagnostics, nothing else. -/
theorem memWriteList_only (a : Nat) (bs : List Byte) (s : State) :
    memWriteList a bs s =
      { s with mem := (memWriteList a bs s).mem, diags := (memWriteList a bs s).diags } := by
  induction bs generalizing a s with
  | nil => rfl
  | cons b bs ih =>
    rw [memWriteList, ih, memWrite_only a b s]

theorem memWriteList_wf (a : Nat) (bs : List Byte) (s : State) (hm : Memory.wf s.cfg.font s.mem) :
    Memory.wf (memWriteList a bs s).cfg.font (memWriteList a bs s).mem := by
  induction bs generalizing a s with
  | nil => exact hm
  | cons b bs ih => exact ih _ _ (memWrite_wf a b s hm)

/-- A byte read after `memWriteList`: byte `c - a` of the list where it landed, the old byte elsewhere. -/
theorem peek_memWriteList (a c : Nat) (bs : List Byte) (s : State) (hm : Memory.wf s.cfg.font s.mem) :
    (memWriteList a bs s).peek c =
      if a ≤ c ∧ c < a + bs.length ∧ c < memSize then bs.getD (c - a) 0 else s.peek c := by
  induction bs generalizing a s with
  | nil =>
    simp only [memWriteList, List.length_nil]
    rw [if_neg]; omega
  | cons b bs ih =>
    rw [memWriteList, ih _ _ (memWrite_wf a b s hm), peek_memWrite a c b s hm]
    simp only [List.length_cons]
    by_cases h1 : a + 1 ≤ c ∧ c < a + 1 + bs.length ∧ c < memSize
    · rw [if_pos h1, if_pos ⟨by omega, by omega, h1.2.2⟩]
      obtain ⟨k, rfl⟩ : ∃ k, c = a + 1 + k := ⟨c - (a + 1), by omega⟩
      have e1 : a + 1 + k - (a + 1) = k := by omega
      have e2 : a + 1 + k - a = k + 1 := by omega
      rw [e1, e2]; rfl
    · rw [if_neg h1]
      by_cases h2 : a = c ∧ a < memSize
      · obtain ⟨rfl, h2⟩ := h2
        rw [if_pos ⟨rfl, h2⟩, if_pos ⟨Nat.le_refl _, by omega, h2⟩]; simp
      · rw [if_neg h2, if_neg]
        rintro ⟨h3, h4, h5⟩
        by_cases h6 : a = c
        · exact h2 ⟨h6, h6 ▸ h5⟩
        · exact h1 ⟨by omega, by omega, h5⟩

/-- `memWriteList` records one `MEM_WRITE_OOR` for each byte at 4096 or above. -/
theorem memWriteList_diags (a : Nat) (bs : List Byte) (s : State) :
    (memWriteList a bs s).diags =
      List.replicate (min bs.length (a + bs.length - memSize)) Diag.memWriteOor ++ s.diags := by
  induction bs generalizing a s with
  | nil => simp [memWriteList]
  | cons b bs ih =>
    rw [memWriteList, ih, memWrite_diags]
    simp only [List.length_cons]
    by_cases h : a < memSize
    · have e : min bs.length (a + 1 + bs.length - memSize) =
          min (bs.length + 1) (a + (bs.length + 1) - memSize) := by omega
      rw [if_pos h, e]
    · rw [if_neg h]
      have e1 : min bs.length (a + 1 + bs.length - memSize) = bs.length := by omega
      have e2 : min (bs.length + 1) (a + (bs.length + 1) - memSize) = bs.length + 1 := by omega
      rw [e1, e2, List.replicate_succ']
      simp

/-- A read changes the diagnostics, nothing else (R42). -/
theorem noteRead_only (a : Nat) (s : State) : s.noteRead a = { s with diags := (s.noteRead a).diags } := by
  unfold State.noteRead; split <;> rfl

theorem noteRead_diags (a : Nat) (s : State) :
    (s.noteRead a).diags = if a < memSize then s.diags else .memReadOor :: s.diags := by
  unfold State.noteRead; split <;> rfl

@[simp] theorem noteRead_peek (a c : Nat) (s : State) : (s.noteRead a).peek c = s.peek c := by
  rw [noteRead_only]; rfl

@[simp] theorem noteRead_reg (a : Nat) (q : RegIdx) (s : State) : (s.noteRead a).reg q = s.reg q := by
  rw [noteRead_only]; rfl

/-- The fetch changes `pc` and the diagnostics, nothing else (R60). -/
theorem afterFetch_only (s : State) :
    s.afterFetch = { s with pc := s.pc + 2, diags := s.afterFetch.diags } := by
  unfold State.afterFetch
  rw [noteRead_only (s.pc.toNat + 1), noteRead_only s.pc.toNat]; rfl

end Sys2Proof.Machine
end

