-- ==== Sys2Proof/Laws/Ops.lean ====
section
/-! SUPPORT. Laws/Ops.lean: for each shared operation, what it can change. -/

namespace Sys2Proof.Machine

/-! ### Skips, calls and returns -/

/-- A skip changes `pc` only (R116). -/
theorem skipIf_only (c : Bool) (s : State) : skipIf c s = { s with pc := if c then s.pc + 2 else s.pc } := by
  cases c <;> rfl

/-- A call below depth 15 pushes `pc`, moves `sp` and jumps, and changes nothing else (R83). -/
theorem pushJump_accepted (target : Word) (s : State) (h : s.sp ≠ 15) :
    pushJump target s =
      { s with stack := s.stack.set s.sp.val s.pc s.sp.isLt, sp := s.sp + 1, pc := target } := by
  simp only [pushJump, h, if_false]; rfl

/-- A call at depth 15 records `STACK_OVERFLOW` and changes nothing else (R83, R154). -/
theorem pushJump_ignored (target : Word) (s : State) (h : s.sp = 15) :
    pushJump target s = s.addDiag .stackOverflow := by
  simp only [pushJump, h, if_true]

/-- A call changes the stack, `sp`, `pc` and the diagnostics, nothing else. -/
theorem pushJump_only (target : Word) (s : State) :
    pushJump target s =
      { s with stack := (pushJump target s).stack, sp := (pushJump target s).sp,
               pc := (pushJump target s).pc, diags := (pushJump target s).diags } := by
  unfold pushJump; split <;> rfl

/-- A return above depth 0 moves `sp` and pops into `pc`, and changes nothing else (R81). -/
theorem popJump_accepted (s : State) (h : s.sp ≠ 0) :
    popJump s = { s with sp := s.sp - 1, pc := s.stack[(s.sp - 1).val] } := by
  simp only [popJump, h, if_false]; rfl

/-- A return at depth 0 records `STACK_UNDERFLOW` and changes nothing else (R81, R155). -/
theorem popJump_ignored (s : State) (h : s.sp = 0) : popJump s = s.addDiag .stackUnderflow := by
  simp only [popJump, h, if_true]

/-- A return changes `sp`, `pc` and the diagnostics, nothing else. -/
theorem popJump_only (s : State) :
    popJump s = { s with sp := (popJump s).sp, pc := (popJump s).pc, diags := (popJump s).diags } := by
  unfold popJump; split <;> rfl

/-! ### Register operations -/

/-- The shift's source line changes `V` only (R98, R100). -/
theorem shiftSource_only (x y : RegIdx) (s : State) :
    shiftSource x y s = { s with v := (shiftSource x y s).v } := by
  unfold shiftSource; split <;> rfl

theorem shiftSource_reg (x y q : RegIdx) (s : State) :
    (shiftSource x y s).reg q = if s.cfg.shiftUsesVy ∧ q = x then s.reg y else s.reg q := by
  unfold shiftSource
  by_cases h : s.cfg.shiftUsesVy = true <;> simp [h, State.reg_setReg]

theorem shiftRightStep_only (x : RegIdx) (s : State) :
    shiftRightStep x s = { s with v := (shiftRightStep x s).v } := rfl

theorem shiftLeftStep_only (x : RegIdx) (s : State) :
    shiftLeftStep x s = { s with v := (shiftLeftStep x s).v } := rfl

/-- The reset after a logic operation changes `V` only (R93). -/
theorem logicVF_only (s : State) : logicVF s = { s with v := (logicVF s).v } := by
  unfold logicVF; split <;> rfl

theorem logicVF_reg (s : State) (q : RegIdx) :
    (logicVF s).reg q = if s.cfg.vfResetOnLogic ∧ q = 15 then 0 else s.reg q := by
  unfold logicVF
  by_cases h : s.cfg.vfResetOnLogic = true <;> simp [h, State.reg_setVF]

/-! ### The address register -/

/-- The narrowing of every writer of `I` stays below 4096 (R17). -/
theorem mask12_toNat (n : Nat) : (mask12 n).toNat = n % 4096 := by
  simp only [mask12, BitVec.toNat_ofNat]; omega

/-- The advance of `I` changes `I` only (R124, R125). -/
theorem advanceI_only (x : RegIdx) (s : State) : advanceI x s = { s with i := (advanceI x s).i } := by
  unfold advanceI; split <;> rfl

theorem advanceI_i (x : RegIdx) (s : State) :
    (advanceI x s).i.toNat =
      if s.cfg.memoryIncrementsI then (s.i.toNat + x.val + 1) % 4096 else s.i.toNat := by
  unfold advanceI
  split
  · exact mask12_toNat _
  · rfl

/-! ### The loops of `Fx55` and `Fx65` -/

/-- The dump loop changes memory and the diagnostics, nothing else (R124). -/
theorem dumpRegs_only (rs : List RegIdx) (s : State) :
    dumpRegs rs s = { s with mem := (dumpRegs rs s).mem, diags := (dumpRegs rs s).diags } := by
  induction rs generalizing s with
  | nil => rfl
  | cons r rs ih => rw [dumpRegs, ih, memWrite_only]

theorem dumpRegs_wf (rs : List RegIdx) (s : State) (hm : Memory.wf s.cfg.font s.mem) :
    Memory.wf (dumpRegs rs s).cfg.font (dumpRegs rs s).mem := by
  induction rs generalizing s with
  | nil => exact hm
  | cons r rs ih => exact ih _ (memWrite_wf _ _ s hm)

/-- The load loop changes `V` and the diagnostics, nothing else (R125). -/
theorem loadRegs_only (rs : List RegIdx) (s : State) :
    loadRegs rs s = { s with v := (loadRegs rs s).v, diags := (loadRegs rs s).diags } := by
  induction rs generalizing s with
  | nil => rfl
  | cons r rs ih => rw [loadRegs, ih, memRead, noteRead_only]; rfl

theorem regsUpTo_mem : ∀ x r : RegIdx, r ∈ regsUpTo x ↔ r ≤ x := by decide

theorem regsUpTo_nodup : ∀ x : RegIdx, (regsUpTo x).Nodup := by decide

/-- How many of the addresses `I + 0 .. I + x` are 4096 or above (R124, R125). -/
theorem regsUpTo_count (x : RegIdx) (i : Nat) :
    ((regsUpTo x).filter (fun r => decide (4096 ≤ i + r.val))).length =
      min (x.val + 1) (i + x.val + 1 - 4096) := by
  have g : ∀ k ≤ 16,
      ((allRegs.take k).filter (fun r => decide (4096 ≤ i + r.val))).length = min k (i + k - 4096) := by
    intro k
    induction k with
    | zero => simp
    | succ k ih =>
      intro hk
      have hk' : k < 16 := by omega
      have e : allRegs[k]'(by simpa [allRegs] using hk') = ⟨k, hk'⟩ := by interval_cases k <;> rfl
      rw [List.take_succ_eq_append_getElem (by simpa [allRegs] using hk'), List.filter_append,
        List.length_append, ih (by omega), e]
      by_cases h : 4096 ≤ i + k <;> simp [h] <;> omega
  exact g _ x.isLt

/-- The dump loop stores every register of the list in range and leaves every other byte (R124). -/
theorem dumpRegs_peek (rs : List RegIdx) (s : State) (hm : Memory.wf s.cfg.font s.mem) (hn : rs.Nodup) :
    (∀ r ∈ rs, s.dataAddr r.val < 4096 → (dumpRegs rs s).peek (s.dataAddr r.val) = s.reg r) ∧
    ∀ a, (∀ r ∈ rs, a ≠ s.dataAddr r.val) → (dumpRegs rs s).peek a = s.peek a := by
  induction rs generalizing s with
  | nil => exact ⟨by simp, fun a _ => rfl⟩
  | cons q rs ih =>
    have e := memWrite_only (s.dataAddr q.val) (s.reg q) s
    have hi : ∀ k, (memWrite (s.dataAddr q.val) (s.reg q) s).dataAddr k = s.dataAddr k := by
      intro k; rw [e]; rfl
    have hr : ∀ k, (memWrite (s.dataAddr q.val) (s.reg q) s).reg k = s.reg k := by
      intro k; rw [e]; rfl
    obtain ⟨i1, i2⟩ := ih _ (memWrite_wf (s.dataAddr q.val) (s.reg q) s hm) (List.nodup_cons.1 hn).2
    simp only [hi, hr] at i1 i2
    have hp := fun c => peek_memWrite (s.dataAddr q.val) c (s.reg q) s hm
    constructor
    · intro r hrm hlt
      rcases List.mem_cons.1 hrm with rfl | hrm
      · rw [dumpRegs, i2, hp, if_pos ⟨rfl, hlt⟩]
        intro r' hr' he
        have : r.val = r'.val := by unfold State.dataAddr at he; omega
        exact (List.nodup_cons.1 hn).1 (Fin.ext this ▸ hr')
      · exact i1 r hrm hlt
    · intro a ha
      rw [dumpRegs, i2 a fun r hr => ha r (by simp [hr]), hp, if_neg]
      rintro ⟨h, _⟩; exact ha q (by simp) h.symm

/-- The dump loop records one `MEM_WRITE_OOR` for each address of 4096 or above. -/
theorem dumpRegs_diags (rs : List RegIdx) (s : State) :
    (dumpRegs rs s).diags =
      List.replicate (rs.filter (fun r => decide (4096 ≤ s.i.toNat + r.val))).length .memWriteOor ++ s.diags := by
  induction rs generalizing s with
  | nil => rfl
  | cons r rs ih =>
    have hi : (memWrite (s.dataAddr r.val) (s.reg r) s).i = s.i := by rw [memWrite_only]
    rw [dumpRegs, ih, memWrite_diags, hi]
    unfold State.dataAddr memSize
    by_cases h : s.i.toNat + r.val < 4096
    · simp [h, show ¬ 4096 ≤ s.i.toNat + r.val by omega]
    · simp [h, show 4096 ≤ s.i.toNat + r.val by omega, List.replicate_succ']

/-- The load loop loads every register of the list and leaves the others (R125). -/
theorem loadRegs_reg (rs : List RegIdx) (s : State) (q : RegIdx) :
    (loadRegs rs s).reg q = if q ∈ rs then s.peek (s.dataAddr q.val) else s.reg q := by
  induction rs generalizing s with
  | nil => simp [loadRegs]
  | cons r rs ih =>
    have hp : ∀ a, ((s.noteRead (s.dataAddr r.val)).setReg r (s.peek (s.dataAddr r.val))).peek a = s.peek a :=
      fun a => noteRead_peek _ a s
    have hd : ∀ k,
        ((s.noteRead (s.dataAddr r.val)).setReg r (s.peek (s.dataAddr r.val))).dataAddr k = s.dataAddr k := by
      intro k; unfold State.dataAddr; rw [noteRead_only]; rfl
    rw [loadRegs, ih]
    show (if q ∈ rs then ((s.noteRead (s.dataAddr r.val)).setReg r (s.peek (s.dataAddr r.val))).peek
      (((s.noteRead (s.dataAddr r.val)).setReg r (s.peek (s.dataAddr r.val))).dataAddr q.val)
      else ((s.noteRead (s.dataAddr r.val)).setReg r (s.peek (s.dataAddr r.val))).reg q) = _
    rw [hp, hd, State.reg_setReg, noteRead_reg]
    by_cases h1 : q ∈ rs
    · simp [h1]
    · by_cases h2 : q = r
      · subst h2; simp
      · simp [h1, h2]

/-- The load loop records one `MEM_READ_OOR` for each address of 4096 or above. -/
theorem loadRegs_diags (rs : List RegIdx) (s : State) :
    (loadRegs rs s).diags =
      List.replicate (rs.filter (fun r => decide (4096 ≤ s.i.toNat + r.val))).length .memReadOor ++ s.diags := by
  induction rs generalizing s with
  | nil => rfl
  | cons r rs ih =>
    have hi : ((memRead (s.dataAddr r.val) s).2.setReg r (memRead (s.dataAddr r.val) s).1).i = s.i := by
      simp only [memRead]; rw [noteRead_only]; rfl
    have hd : ((memRead (s.dataAddr r.val) s).2.setReg r (memRead (s.dataAddr r.val) s).1).diags = _ :=
      noteRead_diags (s.dataAddr r.val) s
    rw [loadRegs, ih, hi, hd]
    unfold State.dataAddr memSize
    by_cases h : s.i.toNat + r.val < 4096
    · simp [h, show ¬ 4096 ≤ s.i.toNat + r.val by omega]
    · simp [h, show 4096 ≤ s.i.toNat + r.val by omega, List.replicate_succ']

/-! ### The fetch -/

theorem pc_add_two (w : Word) : (w + 2).toNat = (w.toNat + 2) % 65536 := by
  rw [BitVec.toNat_add]; rfl

/-- The fetch records one `MEM_READ_OOR` for each of its two addresses that is 4096 or above (R44, R50). -/
theorem afterFetch_diags (s : State) :
    s.afterFetch.diags = List.replicate (min 2 (s.pc.toNat + 2 - 4096)) Diag.memReadOor ++ s.diags := by
  unfold State.afterFetch
  simp only [State.setPc_diags, noteRead_diags, memSize]
  by_cases h1 : s.pc.toNat + 1 < 4096
  · rw [show min 2 (s.pc.toNat + 2 - 4096) = 0 by omega]
    simp [h1, show s.pc.toNat < 4096 by omega]
  · by_cases h2 : s.pc.toNat < 4096
    · rw [show min 2 (s.pc.toNat + 2 - 4096) = 1 by omega]; simp [h1, h2]
    · rw [show min 2 (s.pc.toNat + 2 - 4096) = 2 by omega]; simp [h1, h2, List.replicate_succ]

/-! ### The draw loop -/

/-- The row loop changes the framebuffer and the diagnostics, nothing else (R131, R134). -/
theorem drawRows_only (x0 y0 : Nat) (rows : List Nat) (s : State) (hit : Bool) :
    (drawRows x0 y0 rows s hit).1 =
      { s with fb := (drawRows x0 y0 rows s hit).1.fb, diags := (drawRows x0 y0 rows s hit).1.diags } := by
  induction rows generalizing s hit with
  | nil => rfl
  | cons row rows ih =>
    unfold drawRows
    split
    · simp only [memRead]; rw [ih, noteRead_only]; rfl
    · split
      · rfl
      · rw [ih]

/-! ### Key service and tick -/

/-- `KeyService` changes `V`, `key_waiting` and `keys_observed_pressed`, nothing else (R166). -/
theorem keyService_only (keys : Keys) (s : State) :
    keyService keys s =
      { s with v := (keyService keys s).v, keyWaiting := (keyService keys s).keyWaiting,
               keysObserved := (keyService keys s).keysObserved } := by
  unfold keyService
  split
  · split <;> rfl
  · rfl

/-- `Tick` changes the timers and `sound_enable`, nothing else (R160). -/
theorem tick_only (s : State) :
    tick s = { s with dt := (tick s).dt, st := (tick s).st, soundEnable := (tick s).soundEnable } := rfl

/-- One count down is the natural predecessor (R18, R19). -/
theorem countDown_toNat (b : Byte) : (countDown b).toNat = b.toNat - 1 := by
  unfold countDown
  split
  · have := b.isLt
    rw [BitVec.toNat_sub]; simp; omega
  · omega

end Sys2Proof.Machine
end

