-- ==== Sys2Proof/Laws/Draw.lean ====
section
/-! SUPPORT. Laws/Draw.lean: everything the loops of `Dxyn` can do to the framebuffer, the collision and the
diagnostics (R131 to R133). -/

namespace Sys2Proof.Machine

/-- Column `c` is under a set bit of the sprite byte `b`, among the sprite columns given. -/
def colCovered (clip : Bool) (b : Byte) (x0 : Nat) (cols : List Nat) (c : Fin 64) : Bool :=
  cols.any fun col => decide (drawColumn clip x0 col = some c) && b.getLsbD (7 - col)

/-- Pixel (`c`, `r`) is under a set bit of the sprite, among the sprite rows given. -/
def pixelCovered (s : State) (x0 y0 : Nat) (rows : List Nat) (c : Fin 64) (r : Fin 32) : Bool :=
  rows.any fun row =>
    decide (y0 + row = r.val) && colCovered s.cfg.clipSprites (s.peek (s.dataAddr row)) x0 spriteCols c

/-- No two of the eight sprite columns land on one column. -/
theorem drawColumn_inj {clip : Bool} {x0 a b : Nat} {c : Fin 64} (ha : a < 8) (hb : b < 8)
    (h1 : drawColumn clip x0 a = some c) (h2 : drawColumn clip x0 b = some c) : a = b := by
  unfold drawColumn at h1 h2
  split at h1
  · cases h1
  · split at h2
    · cases h2
    · injection h1 with h1
      injection h2 with h2
      have e1 := congrArg Fin.val h1
      have e2 := congrArg Fin.val h2
      simp [Fin.ofNat] at e1 e2
      omega

/-- Where a sprite column lands (R131). -/
theorem drawColumn_eq_some {clip : Bool} {x0 k : Nat} (hx : x0 < 64) (hk : k < 8) (c : Fin 64) :
    drawColumn clip x0 k = some c ↔ if clip = true then c.val = x0 + k else c.val = (x0 + k) % 64 := by
  have hc := c.isLt
  have e : (some (Fin.ofNat 64 (x0 + k)) = some c) ↔ c.val = (x0 + k) % 64 := by
    rw [Option.some_inj, Fin.ext_iff]; simp [Fin.ofNat, eq_comm]
  unfold drawColumn
  cases clip
  · rw [if_neg (by simp), if_neg (by simp)]; exact e
  · by_cases h : 64 ≤ x0 + k
    · simp [h]; omega
    · simp only [h, false_and, if_false, if_true, e]; omega

/-- One sprite pixel inverts its pixel when the bit is 1 and leaves every other one. -/
theorem drawPixel_get (bit : Bool) (c : Fin 64) (r : Fin 32) (p : Framebuffer × Bool) (d : Fin 64) (q : Fin 32) :
    fbGet (drawPixel bit c r p).1 d q = (fbGet p.1 d q ^^ (bit && decide (q = r ∧ d = c))) := by
  unfold drawPixel
  cases bit
  · simp
  · simp only [if_true, fbGet_fbSet, Bool.true_and]
    by_cases h : q = r ∧ d = c
    · rw [if_pos h, h.1, h.2]; simp
    · rw [if_neg h]; simp [h]

/-- One sprite pixel collides when the bit is 1 and the pixel was set. -/
theorem drawPixel_hit (bit : Bool) (c : Fin 64) (r : Fin 32) (p : Framebuffer × Bool) :
    (drawPixel bit c r p).2 = (p.2 || (bit && fbGet p.1 c r)) := by
  unfold drawPixel; cases bit <;> simp

/-- The column loop inverts exactly the covered pixels of its row, and collides exactly when one was set. -/
theorem drawCols_spec (clip : Bool) (b : Byte) (x0 : Nat) (r : Fin 32) (cols : List Nat) (hn : cols.Nodup)
    (h8 : ∀ c ∈ cols, c < 8) (p : Framebuffer × Bool) :
    (∀ c q, fbGet (drawCols clip b x0 r cols p).1 c q =
      (fbGet p.1 c q ^^ (decide (q = r) && colCovered clip b x0 cols c))) ∧
    ((drawCols clip b x0 r cols p).2 = true ↔
      p.2 = true ∨ ∃ c, fbGet p.1 c r = true ∧ colCovered clip b x0 cols c = true) := by
  induction cols generalizing p with
  | nil => simp [drawCols, colCovered]
  | cons col cols ih =>
    have hn' := List.nodup_cons.1 hn
    have ih := ih hn'.2 (fun c hc => h8 c (by simp [hc]))
    have hcov : ∀ c, colCovered clip b x0 (col :: cols) c =
        ((decide (drawColumn clip x0 col = some c) && b.getLsbD (7 - col)) || colCovered clip b x0 cols c) := by
      intro c; simp [colCovered]
    unfold drawCols
    cases hd : drawColumn clip x0 col with
    | none =>
      simp only [hcov, hd]
      simpa using ih p
    | some d =>
      have hfree : colCovered clip b x0 cols d = false := by
        by_contra hc
        simp only [Bool.not_eq_false, colCovered, List.any_eq_true, Bool.and_eq_true, decide_eq_true_eq] at hc
        obtain ⟨k, hk, hk1, hk2⟩ := hc
        exact hn'.1 (drawColumn_inj (h8 col (by simp)) (h8 k (by simp [hk])) hd hk1 ▸ hk)
      obtain ⟨i1, i2⟩ := ih (drawPixel (b.getLsbD (7 - col)) d r p)
      simp only [hcov, hd]
      constructor
      · intro c q
        rw [i1, drawPixel_get]
        by_cases hc : c = d
        · subst hc; rw [hfree]; by_cases hq : q = r <;> simp [hq]
        · have : some d ≠ some c := by simpa using Ne.symm hc
          by_cases hq : q = r <;> simp [hq, hc, Ne.symm hc]
      · rw [i2, drawPixel_hit]
        simp only [drawPixel_get]
        constructor
        · rintro (h | ⟨c, h3, h4⟩)
          · simp at h
            rcases h with h | h
            · exact .inl h
            · exact .inr ⟨d, h.2, by simp [h.1]⟩
          · have : c ≠ d := by rintro rfl; rw [hfree] at h4; cases h4
            exact .inr ⟨c, by simpa [this] using h3, by simp [h4]⟩
        · rintro (h | ⟨c, h3, h4⟩)
          · left; simp [h]
          · by_cases hc : c = d
            · subst hc
              rw [hfree] at h4; simp at h4
              left; simp [h3, h4]
            · right
              refine ⟨c, by simpa [hc] using h3, ?_⟩
              simpa [Ne.symm hc] using h4

/-- The row loop inverts exactly the covered pixels, collides exactly when one was set, and records one `MEM_READ_OOR`
for each row on the screen that is read from an address of 4096 or more. `s0` is the state the instruction started in,
whose configuration, memory and `I` the loop leaves. -/
theorem drawRows_spec (s0 : State) (x0 y0 : Nat) (rows : List Nat) (hn : rows.Pairwise (· < ·)) (s : State)
    (hit : Bool) (hc : s.cfg = s0.cfg) (hp : ∀ a, s.peek a = s0.peek a) (hi : s.i = s0.i) :
    (∀ c q, fbGet (drawRows x0 y0 rows s hit).1.fb c q = (fbGet s.fb c q ^^ pixelCovered s0 x0 y0 rows c q)) ∧
    ((drawRows x0 y0 rows s hit).2 = true ↔
      hit = true ∨ ∃ c q, fbGet s.fb c q = true ∧ pixelCovered s0 x0 y0 rows c q = true) ∧
    (drawRows x0 y0 rows s hit).1.diags =
      List.replicate (rows.filter (fun r => decide (y0 + r < 32) && decide (4096 ≤ s0.i.toNat + r))).length
        .memReadOor ++ s.diags := by
  induction rows generalizing s hit with
  | nil => simp [drawRows, pixelCovered]
  | cons row rows ih =>
    have hn' := List.pairwise_cons.1 hn
    have hcov : ∀ c q, pixelCovered s0 x0 y0 (row :: rows) c q =
        ((decide (y0 + row = q.val) &&
          colCovered s0.cfg.clipSprites (s0.peek (s0.dataAddr row)) x0 spriteCols c) ||
          pixelCovered s0 x0 y0 rows c q) := by
      intro c q; simp [pixelCovered]
    unfold drawRows
    by_cases h : y0 + row < 32
    · simp only [h, dif_pos, memRead]
      have hda : s.dataAddr row = s0.dataAddr row := by unfold State.dataAddr; rw [hi]
      set t := s.noteRead (s.dataAddr row) with ht
      have htf : t.fb = s.fb := by rw [ht, noteRead_only]
      have htd : t.diags = if 4096 ≤ s0.i.toNat + row then Diag.memReadOor :: s.diags else s.diags := by
        rw [ht, noteRead_diags, hda]; unfold State.dataAddr memSize
        by_cases h4 : s0.i.toNat + row < 4096
        · rw [if_pos h4, if_neg (by omega)]
        · rw [if_neg h4, if_pos (by omega)]
      obtain ⟨a1, a2⟩ := drawCols_spec s.cfg.clipSprites (s.peek (s.dataAddr row)) x0 ⟨y0 + row, h⟩ spriteCols
        (by decide) (by decide) (t.fb, hit)
      set D := drawCols s.cfg.clipSprites (s.peek (s.dataAddr row)) x0 ⟨y0 + row, h⟩ spriteCols (t.fb, hit)
      have htc : (t.setFb D.1).cfg = s0.cfg := by rw [← hc, State.setFb_cfg, ht, noteRead_only]
      have htp : ∀ a, (t.setFb D.1).peek a = s0.peek a := by
        intro a; rw [← hp a, ← noteRead_peek (s.dataAddr row) a s]; rfl
      have hti : (t.setFb D.1).i = s0.i := by rw [← hi, State.setFb_i, ht, noteRead_only]
      obtain ⟨i1, i2, i3⟩ := ih hn'.2 (t.setFb D.1) D.2 htc htp hti
      simp only [htf] at a1 a2
      rw [hp, hda, hc] at a1 a2
      have excl : ∀ c, pixelCovered s0 x0 y0 rows c ⟨y0 + row, h⟩ = false := by
        intro c; by_contra hx
        simp only [Bool.not_eq_false, pixelCovered, List.any_eq_true, Bool.and_eq_true, decide_eq_true_eq] at hx
        obtain ⟨k, hk, hk1, _⟩ := hx
        have := hn'.1 k hk; omega
      refine ⟨?_, ?_, ?_⟩
      · intro c q
        rw [i1, State.setFb_fb, a1, hcov]
        have hq : (q = ⟨y0 + row, h⟩) ↔ (y0 + row = q.val) := ⟨fun e => by rw [e], fun e => Fin.ext e.symm⟩
        rw [decide_eq_decide.2 hq]
        by_cases e : y0 + row = q.val
        · have e' := hq.2 e
          have hx := excl c
          rw [← e'] at hx
          rw [hx]; simp
        · rw [decide_eq_false e]; simp
      · rw [i2, a2]
        simp only [State.setFb_fb, a1, hcov]
        constructor
        · rintro ((h1 | ⟨c, h1, h2⟩) | ⟨c, q, h1, h2⟩)
          · exact .inl h1
          · exact .inr ⟨c, _, h1, by simp [h2]⟩
          · have e : q ≠ ⟨y0 + row, h⟩ := by rintro rfl; rw [excl] at h2; cases h2
            exact .inr ⟨c, q, by simpa [e] using h1, by simp [h2]⟩
        · rintro (h1 | ⟨c, q, h1, h2⟩)
          · exact .inl (.inl h1)
          · by_cases e : y0 + row = q.val
            · have e' : q = ⟨y0 + row, h⟩ := Fin.ext e.symm
              subst e'; rw [excl] at h2; simp at h2
              exact .inl (.inr ⟨c, h1, h2⟩)
            · have e' : q ≠ ⟨y0 + row, h⟩ := fun z => e (by rw [z])
              refine .inr ⟨c, q, by simpa [e'] using h1, by simpa [e] using h2⟩
      · rw [i3, State.setFb_diags, htd]
        by_cases h4 : 4096 ≤ s0.i.toNat + row
        · simp [h, h4, List.replicate_succ']
        · simp [h, h4]
    · have hnone : ∀ (c : Fin 64) (q : Fin 32), (decide (y0 + row = q.val) &&
          colCovered s0.cfg.clipSprites (s0.peek (s0.dataAddr row)) x0 spriteCols c) = false := by
        intro c q; have := q.isLt; have : y0 + row ≠ q.val := by omega
        simp [this]
      simp only [h, dif_neg, not_false_eq_true]
      by_cases hcl : s.cfg.clipSprites = true
      · have hall : ∀ c q, pixelCovered s0 x0 y0 rows c q = false := by
          intro c q; by_contra hx
          simp only [Bool.not_eq_false, pixelCovered, List.any_eq_true, Bool.and_eq_true, decide_eq_true_eq] at hx
          obtain ⟨k, hk, hk1, _⟩ := hx
          have := hn'.1 k hk; have := q.isLt; omega
        have hf : rows.filter (fun r => decide (y0 + r < 32) && decide (4096 ≤ s0.i.toNat + r)) = [] := by
          rw [List.filter_eq_nil_iff]; intro k hk; have := hn'.1 k hk
          have : ¬ y0 + k < 32 := by omega
          simp [this]
        simp only [hcl, if_true, hcov, hnone, hall, List.filter_cons, h, hf]
        simp
      · obtain ⟨i1, i2, i3⟩ := ih hn'.2 s hit hc hp hi
        simp only [hcl, hcov, hnone, Bool.false_eq_true, if_false, Bool.false_or, List.filter_cons, h,
          decide_false, Bool.false_and]
        exact ⟨i1, i2, i3⟩

/-- The columns covered by a sprite byte, as R131 says where a column lands. -/
theorem colCovered_iff (clip : Bool) (b : Byte) (x0 : Nat) (hx : x0 < 64) (c : Fin 64) :
    colCovered clip b x0 spriteCols c = true ↔
      ∃ k, k < 8 ∧ (if clip = true then c.val = x0 + k else c.val = (x0 + k) % 64) ∧
        b.getLsbD (7 - k) = true := by
  have hm : ∀ k, k ∈ spriteCols ↔ k < 8 := by
    intro k; simp [spriteCols]; omega
  simp only [colCovered, List.any_eq_true, Bool.and_eq_true, decide_eq_true_eq, hm]
  constructor
  · rintro ⟨k, h1, h2, h3⟩; exact ⟨k, h1, (drawColumn_eq_some hx h1 c).1 h2, h3⟩
  · rintro ⟨k, h1, h2, h3⟩; exact ⟨k, h1, (drawColumn_eq_some hx h1 c).2 h2, h3⟩

end Sys2Proof.Machine
end

