-- ==== Sys2Proof/Laws/Exec.lean ====
section
/-! SUPPORT. Laws/Exec.lean: what each family of meanings can change, what no meaning changes, and runs of steps. -/

namespace Sys2Proof.Machine

theorem next_inj {s t : State} (h : (Host.Outcome.next s : Host.Outcome State Fault Refusal) = .next t) : s = t := by
  injection h

/-! ### The meanings with loops or toggles -/

/-- `Dxyn` changes `V`, the framebuffer and the diagnostics, nothing else (R131, R134). -/
theorem execDrw_only (x y : RegIdx) (n : BitVec 4) (s : State) :
    ∃ t, execDrw x y n s = .next t ∧ t = { s with v := t.v, fb := t.fb, diags := t.diags } := by
  refine ⟨_, rfl, ?_⟩
  have e := drawRows_only ((s.reg x).toNat % 64) ((s.reg y).toNat % 32) (List.range n.toNat) s false
  rw [e]; rfl

/-- `Fx33` changes memory and the diagnostics, nothing else (R123). -/
theorem execBcd_only (x : RegIdx) (s : State) :
    ∃ t, execBcd x s = .next t ∧ t = { s with mem := t.mem, diags := t.diags } :=
  ⟨_, rfl, memWriteList_only _ _ _⟩

/-- `Fx55` changes memory, `I` and the diagnostics, nothing else (R124). -/
theorem execDump_only (x : RegIdx) (s : State) :
    ∃ t, execDump x s = .next t ∧ t = { s with mem := t.mem, i := t.i, diags := t.diags } := by
  refine ⟨_, rfl, ?_⟩
  rw [advanceI_only, dumpRegs_only]

/-- `Fx65` changes `V`, `I` and the diagnostics, nothing else (R125). -/
theorem execLoad_only (x : RegIdx) (s : State) :
    ∃ t, execLoad x s = .next t ∧ t = { s with v := t.v, i := t.i, diags := t.diags } := by
  refine ⟨_, rfl, ?_⟩
  rw [advanceI_only, loadRegs_only]

/-- The logic operations change `V`, nothing else (R93 to R95). -/
theorem logic_only (x : RegIdx) (b : Byte) (s : State) :
    logicVF (s.setReg x b) = { s with v := (logicVF (s.setReg x b)).v } := by
  rw [logicVF_only]; rfl

/-- The shifts change `V`, nothing else (R98, R100). -/
theorem shiftRight_only (x y : RegIdx) (s : State) :
    shiftRightStep x (shiftSource x y s) = { s with v := (shiftRightStep x (shiftSource x y s)).v } := by
  rw [shiftRightStep_only, shiftSource_only]

theorem shiftLeft_only (x y : RegIdx) (s : State) :
    shiftLeftStep x (shiftSource x y s) = { s with v := (shiftLeftStep x (shiftSource x y s)).v } := by
  rw [shiftLeftStep_only, shiftSource_only]

/-! ### What no instruction changes -/

/-- No instruction changes the sound output, the configuration, the frame's key levels, the place in the frame, the
key inputs or the frame counter. -/
theorem exec_keeps (i : Instr) (s t : State) (h : exec i s = .next t) :
    t.soundEnable = s.soundEnable ∧ t.cfg = s.cfg ∧ t.keys = s.keys ∧ t.phase = s.phase ∧
      t.keyInputs = s.keyInputs ∧ t.frameNo = s.frameNo := by
  cases i
  case drw x y n =>
    obtain ⟨u, hu, e⟩ := execDrw_only x y n s
    cases next_inj (hu.symm.trans h); rw [e]; exact ⟨rfl, rfl, rfl, rfl, rfl, rfl⟩
  case bcd x =>
    obtain ⟨u, hu, e⟩ := execBcd_only x s
    cases next_inj (hu.symm.trans h); rw [e]; exact ⟨rfl, rfl, rfl, rfl, rfl, rfl⟩
  case dump x =>
    obtain ⟨u, hu, e⟩ := execDump_only x s
    cases next_inj (hu.symm.trans h); rw [e]; exact ⟨rfl, rfl, rfl, rfl, rfl, rfl⟩
  case load x =>
    obtain ⟨u, hu, e⟩ := execLoad_only x s
    cases next_inj (hu.symm.trans h); rw [e]; exact ⟨rfl, rfl, rfl, rfl, rfl, rfl⟩
  all_goals cases h
  case ret => rw [popJump_only]; exact ⟨rfl, rfl, rfl, rfl, rfl, rfl⟩
  case call => rw [pushJump_only]; exact ⟨rfl, rfl, rfl, rfl, rfl, rfl⟩
  case orReg => rw [logic_only]; exact ⟨rfl, rfl, rfl, rfl, rfl, rfl⟩
  case andReg => rw [logic_only]; exact ⟨rfl, rfl, rfl, rfl, rfl, rfl⟩
  case xorReg => rw [logic_only]; exact ⟨rfl, rfl, rfl, rfl, rfl, rfl⟩
  case shrReg => rw [shiftRight_only]; exact ⟨rfl, rfl, rfl, rfl, rfl, rfl⟩
  case shlReg => rw [shiftLeft_only]; exact ⟨rfl, rfl, rfl, rfl, rfl, rfl⟩
  case seImm => rw [skipIf_only]; exact ⟨rfl, rfl, rfl, rfl, rfl, rfl⟩
  case sneImm => rw [skipIf_only]; exact ⟨rfl, rfl, rfl, rfl, rfl, rfl⟩
  case seReg => rw [skipIf_only]; exact ⟨rfl, rfl, rfl, rfl, rfl, rfl⟩
  case sneReg => rw [skipIf_only]; exact ⟨rfl, rfl, rfl, rfl, rfl, rfl⟩
  case skp => rw [skipIf_only]; exact ⟨rfl, rfl, rfl, rfl, rfl, rfl⟩
  case sknp => rw [skipIf_only]; exact ⟨rfl, rfl, rfl, rfl, rfl, rfl⟩
  all_goals exact ⟨rfl, rfl, rfl, rfl, rfl, rfl⟩

/-! ### Steps and runs -/

/-- What a step is: one of the four operations of the frame protocol, by the place in the frame (R170). -/
theorem step_cases (s : State) :
    (s.phase = .frameStart ∧ step s = .next (beginFrame s)) ∨
    (s.phase = .tickDue ∧ step s = .next (endFrame s)) ∨
    (∃ ran left, s.phase = .running ran left ∧ loopEnds ran left s = true ∧ step s = .next (exitLoop s)) ∨
    (∃ ran left, s.phase = .running ran left ∧ loopEnds ran left s = false ∧ s.keyWaiting = false ∧
      step s = exec (decode s.fetchWord) (countInstr ran left s).afterFetch) := by
  unfold step
  cases hp : s.phase with
  | frameStart => exact .inl ⟨rfl, rfl⟩
  | tickDue => exact .inr (.inl ⟨rfl, rfl⟩)
  | running ran left =>
    by_cases he : loopEnds ran left s = true
    · exact .inr (.inr (.inl ⟨ran, left, rfl, he, by simp [he]⟩))
    · have hk : s.keyWaiting = false := by
        cases left with
        | zero => simp [loopEnds] at he
        | succ n => simp only [loopEnds, Bool.or_eq_true, not_or, Bool.not_eq_true] at he; exact he.1
      refine .inr (.inr (.inr ⟨ran, left, rfl, by simpa using he, hk, ?_⟩))
      have hk' : (countInstr ran left s).keyWaiting = false := hk
      simp only [he, if_false, cpuStep, hk', Bool.false_eq_true]
      rfl

/-- Runs compose. -/
theorem runsTo_add {j k : Nat} {s t u : State} (h1 : RunsTo j s t) (h2 : RunsTo k t u) : RunsTo (j + k) s u := by
  induction j generalizing s with
  | zero => cases h1; simpa using h2
  | succ j ih =>
    obtain ⟨v, hv, hr⟩ := h1
    have := ih hr
    rw [show j + 1 + k = j + k + 1 by omega]
    exact ⟨v, hv, this⟩

/-- What every step keeps, a run keeps. -/
theorem runsTo_keeps (P : State → Prop) (hP : ∀ s t, P s → step s = .next t → P t) {k : Nat} {s t : State}
    (hr : RunsTo k s t) (hs : P s) : P t := by
  induction k generalizing s with
  | zero => cases hr; exact hs
  | succ k ih =>
    obtain ⟨v, hv, hr⟩ := hr
    exact ih hr (hP s v hs hv)

theorem host_run_succ (M : Host.Core) (k : Nat) (s t : M.State) (h : M.step s = .next t) :
    M.run (k + 1) s = M.run k t := by
  rw [Host.Core.run.eq_2, h]

/-- A run as the host's interface runs the machine. -/
theorem run_of_runsTo {k : Nat} {s t : State} (hr : RunsTo k s t) : Host.Core.run core k s = .next t := by
  induction k generalizing s with
  | zero => cases hr; rfl
  | succ k ih =>
    obtain ⟨v, hv, hr⟩ := hr
    exact (host_run_succ core k s v hv).trans (ih hr)

end Sys2Proof.Machine
end

