-- ==== Sys2Proof/Laws/Key.lean ====
section
/-! SUPPORT. Laws/Key.lean: everything `KeyService` can do (R165). -/

namespace Sys2Proof.Machine

theorem oneHot_getLsbD : ∀ a b : Fin 16, (1#16 <<< a.val).getLsbD b.val = decide (a = b) := by decide

theorem allRegs_mem : ∀ j : Fin 16, j ∈ allRegs := by decide

theorem allRegs_pairwise : allRegs.Pairwise (· < ·) := by decide

/-- The scan over an ascending list of keys: either no key was observed and is now released, and every held key of the
list is observed; or the lowest such key is delivered and the held keys below it are observed. -/
theorem scanKeys_spec (keys : Keys) (l : List (Fin 16)) (hl : l.Pairwise (· < ·)) (obs : Keys) :
    ((scanKeys keys l obs).2 = none ∧
      (∀ k ∈ l, obs.getLsbD k.val = true → keys.getLsbD k.val = true) ∧
      ∀ j : Fin 16, (scanKeys keys l obs).1.getLsbD j.val =
        (obs.getLsbD j.val || (keys.getLsbD j.val && decide (j ∈ l)))) ∨
    (∃ k ∈ l, (scanKeys keys l obs).2 = some k ∧ obs.getLsbD k.val = true ∧ keys.getLsbD k.val = false ∧
      (∀ j ∈ l, j < k → ¬ (obs.getLsbD j.val = true ∧ keys.getLsbD j.val = false)) ∧
      ∀ j : Fin 16, (scanKeys keys l obs).1.getLsbD j.val =
        (obs.getLsbD j.val || (keys.getLsbD j.val && decide (j ∈ l ∧ j < k)))) := by
  induction l generalizing obs with
  | nil => left; simp [scanKeys]
  | cons a l ih =>
    have hp := List.pairwise_cons.1 hl
    have hna : a ∉ l := fun h => absurd (hp.1 a h) (lt_irrefl a)
    unfold scanKeys
    by_cases h1 : keyHeld keys a = true
    · have h1' : keys.getLsbD a.val = true := h1
      simp only [h1, if_true]
      have hob : ∀ j : Fin 16, (obs ||| 1#16 <<< a.val).getLsbD j.val = (obs.getLsbD j.val || decide (a = j)) := by
        intro j; rw [BitVec.getLsbD_or, oneHot_getLsbD]
      have hob' : ∀ j ∈ l, (obs ||| 1#16 <<< a.val).getLsbD j.val = obs.getLsbD j.val := by
        intro j hj
        have : a ≠ j := fun e => hna (e ▸ hj)
        rw [hob]; simp [this]
      rcases ih hp.2 (obs ||| 1#16 <<< a.val) with ⟨e, i1, i2⟩ | ⟨k, hk, e, i1, i2, i3, i4⟩
      · refine .inl ⟨e, ?_, ?_⟩
        · intro k hk hko
          rcases List.mem_cons.1 hk with rfl | hk
          · exact h1'
          · exact i1 k hk (by rw [hob' k hk]; exact hko)
        · intro j; rw [i2, hob]
          by_cases e : a = j
          · subst e; simp [h1']
          · simp [e, Ne.symm e]
      · refine .inr ⟨k, by simp [hk], e, by rw [← hob' k hk]; exact i1, i2, ?_, ?_⟩
        · intro j hj hjk ⟨z1, z2⟩
          rcases List.mem_cons.1 hj with rfl | hj
          · rw [h1'] at z2; cases z2
          · exact i3 j hj hjk ⟨by rw [hob' j hj]; exact z1, z2⟩
        · intro j; rw [i4, hob]
          by_cases e : a = j
          · subst e; simp [h1', hp.1 k hk]
          · simp [e, Ne.symm e]
    · have h1' : keys.getLsbD a.val = false := by simpa [keyHeld] using h1
      simp only [h1, Bool.false_eq_true, if_false]
      by_cases h2 : keyHeld obs a = true
      · have h2' : obs.getLsbD a.val = true := h2
        simp only [h2, if_true]
        refine .inr ⟨a, by simp, rfl, h2', h1', ?_, ?_⟩
        · intro j hj hja
          rcases List.mem_cons.1 hj with rfl | hj
          · exact absurd hja (lt_irrefl _)
          · exact absurd (lt_trans hja (hp.1 j hj)) (lt_irrefl _)
        · intro j
          have : ¬ (j ∈ a :: l ∧ j < a) := by
            rintro ⟨hj, hja⟩
            rcases List.mem_cons.1 hj with rfl | hj
            · exact absurd hja (lt_irrefl _)
            · exact absurd (lt_trans hja (hp.1 j hj)) (lt_irrefl _)
          rw [decide_eq_false this]; simp
      · have h2' : obs.getLsbD a.val = false := by simpa [keyHeld] using h2
        simp only [h2, Bool.false_eq_true, if_false]
        rcases ih hp.2 obs with ⟨e, i1, i2⟩ | ⟨k, hk, e, i1, i2, i3, i4⟩
        · refine .inl ⟨e, ?_, ?_⟩
          · intro k hk hko
            rcases List.mem_cons.1 hk with rfl | hk
            · rw [h2'] at hko; cases hko
            · exact i1 k hk hko
          · intro j; rw [i2]
            by_cases e : a = j
            · subst e; rw [h1']; rfl
            · simp [Ne.symm e]
        · refine .inr ⟨k, by simp [hk], e, i1, i2, ?_, ?_⟩
          · intro j hj hjk ⟨z1, z2⟩
            rcases List.mem_cons.1 hj with rfl | hj
            · rw [h2'] at z1; cases z1
            · exact i3 j hj hjk ⟨z1, z2⟩
          · intro j; rw [i4]
            by_cases e : a = j
            · subst e; rw [h1']; rfl
            · simp [Ne.symm e]

/-- The scan of `KeyService` over all sixteen keys (R165). -/
theorem scanKeys_all (keys obs : Keys) :
    ((scanKeys keys allRegs obs).2 = none ∧
      (∀ k : Fin 16, obs.getLsbD k.val = true → keys.getLsbD k.val = true) ∧
      ∀ j : Fin 16, (scanKeys keys allRegs obs).1.getLsbD j.val =
        (obs.getLsbD j.val || keys.getLsbD j.val)) ∨
    (∃ k : Fin 16, (scanKeys keys allRegs obs).2 = some k ∧
      obs.getLsbD k.val = true ∧ keys.getLsbD k.val = false ∧
      (∀ j, j < k → ¬ (obs.getLsbD j.val = true ∧ keys.getLsbD j.val = false)) ∧
      ∀ j : Fin 16, (scanKeys keys allRegs obs).1.getLsbD j.val =
        (obs.getLsbD j.val || (keys.getLsbD j.val && decide (j < k)))) := by
  rcases scanKeys_spec keys allRegs allRegs_pairwise obs with ⟨e, i1, i2⟩ | ⟨k, hk, e, i1, i2, i3, i4⟩
  · exact .inl ⟨e, fun k => i1 k (allRegs_mem k), fun j => by simpa [allRegs_mem] using i2 j⟩
  · exact .inr ⟨k, e, i1, i2, fun j => i3 j (allRegs_mem j), fun j => by simpa [allRegs_mem] using i4 j⟩

/-- A service that delivers no key only observes the held ones. -/
theorem keyService_none {keys : Keys} {s : State} (hw : s.keyWaiting = true)
    (e : (scanKeys keys allRegs s.keysObserved).2 = none) :
    keyService keys s = s.setKeysObserved (scanKeys keys allRegs s.keysObserved).1 := by
  unfold keyService
  rw [if_pos hw]
  generalize scanKeys keys allRegs s.keysObserved = p at *
  obtain ⟨a, b⟩ := p
  cases e; rfl

/-- A service that delivers key `k` writes it to the target register and ends the wait. -/
theorem keyService_some {keys : Keys} {s : State} {k : Fin 16} (hw : s.keyWaiting = true)
    (e : (scanKeys keys allRegs s.keysObserved).2 = some k) :
    keyService keys s =
      ((s.setKeysObserved (scanKeys keys allRegs s.keysObserved).1).setReg s.keyTarget
        (BitVec.ofNat 8 k.val)).setKeyWaiting false := by
  unfold keyService
  rw [if_pos hw]
  generalize scanKeys keys allRegs s.keysObserved = p at *
  obtain ⟨a, b⟩ := p
  cases e; rfl

end Sys2Proof.Machine
end

