-- ==== Sys2Proof/Laws/PerInstr.lean ====
section
/-! SUPPORT. Laws/PerInstr.lean: one lemma per constructor of Instr: the word the encoder writes is one that the
instruction's own row of R66 selects. -/

namespace Sys2Proof.Laws.EncodesOwnRow

/-- The instruction's own row of R66's map selects the word the encoder writes. -/
def Statement (i : Instr) : Prop := ∃ r, opTable[i.row]? = some r ∧ r.selects (encode i) = true

theorem cls : Statement .cls := ⟨_, rfl, by decide⟩

theorem ret : Statement .ret := ⟨_, rfl, by decide⟩

theorem jp (nnn : BitVec 12) : Statement (.jp nnn) :=
  ⟨_, rfl, (selects_op _ _ 1 _ (by decide)).trans (by simp [encode])⟩

theorem call (nnn : BitVec 12) : Statement (.call nnn) :=
  ⟨_, rfl, (selects_op _ _ 2 _ (by decide)).trans (by simp [encode])⟩

theorem seImm (x : RegIdx) (kk : Byte) : Statement (.seImm x kk) :=
  ⟨_, rfl, (selects_op _ _ 3 _ (by decide)).trans (by simp [encode])⟩

theorem sneImm (x : RegIdx) (kk : Byte) : Statement (.sneImm x kk) :=
  ⟨_, rfl, (selects_op _ _ 4 _ (by decide)).trans (by simp [encode])⟩

theorem seReg (x : RegIdx) (y : RegIdx) (n : BitVec 4) : Statement (.seReg x y n) :=
  ⟨_, rfl, (selects_op _ _ 5 _ (by decide)).trans (by simp [encode])⟩

theorem ldImm (x : RegIdx) (kk : Byte) : Statement (.ldImm x kk) :=
  ⟨_, rfl, (selects_op _ _ 6 _ (by decide)).trans (by simp [encode])⟩

theorem addImm (x : RegIdx) (kk : Byte) : Statement (.addImm x kk) :=
  ⟨_, rfl, (selects_op _ _ 7 _ (by decide)).trans (by simp [encode])⟩

theorem ldReg (x : RegIdx) (y : RegIdx) : Statement (.ldReg x y) :=
  ⟨_, rfl, (selects_op_n _ _ 8 0 _ (by decide)).trans (by simp [encode])⟩

theorem orReg (x : RegIdx) (y : RegIdx) : Statement (.orReg x y) :=
  ⟨_, rfl, (selects_op_n _ _ 8 1 _ (by decide)).trans (by simp [encode])⟩

theorem andReg (x : RegIdx) (y : RegIdx) : Statement (.andReg x y) :=
  ⟨_, rfl, (selects_op_n _ _ 8 2 _ (by decide)).trans (by simp [encode])⟩

theorem xorReg (x : RegIdx) (y : RegIdx) : Statement (.xorReg x y) :=
  ⟨_, rfl, (selects_op_n _ _ 8 3 _ (by decide)).trans (by simp [encode])⟩

theorem addReg (x : RegIdx) (y : RegIdx) : Statement (.addReg x y) :=
  ⟨_, rfl, (selects_op_n _ _ 8 4 _ (by decide)).trans (by simp [encode])⟩

theorem subReg (x : RegIdx) (y : RegIdx) : Statement (.subReg x y) :=
  ⟨_, rfl, (selects_op_n _ _ 8 5 _ (by decide)).trans (by simp [encode])⟩

theorem shrReg (x : RegIdx) (y : RegIdx) : Statement (.shrReg x y) :=
  ⟨_, rfl, (selects_op_n _ _ 8 6 _ (by decide)).trans (by simp [encode])⟩

theorem subnReg (x : RegIdx) (y : RegIdx) : Statement (.subnReg x y) :=
  ⟨_, rfl, (selects_op_n _ _ 8 7 _ (by decide)).trans (by simp [encode])⟩

theorem shlReg (x : RegIdx) (y : RegIdx) : Statement (.shlReg x y) :=
  ⟨_, rfl, (selects_op_n _ _ 8 14 _ (by decide)).trans (by simp [encode])⟩

theorem sneReg (x : RegIdx) (y : RegIdx) (n : BitVec 4) : Statement (.sneReg x y n) :=
  ⟨_, rfl, (selects_op _ _ 9 _ (by decide)).trans (by simp [encode])⟩

theorem ldI (nnn : BitVec 12) : Statement (.ldI nnn) :=
  ⟨_, rfl, (selects_op _ _ 10 _ (by decide)).trans (by simp [encode])⟩

theorem jpOff (nnn : BitVec 12) : Statement (.jpOff nnn) :=
  ⟨_, rfl, (selects_op _ _ 11 _ (by decide)).trans (by simp [encode])⟩

theorem rnd (x : RegIdx) (kk : Byte) : Statement (.rnd x kk) :=
  ⟨_, rfl, (selects_op _ _ 12 _ (by decide)).trans (by simp [encode])⟩

theorem drw (x : RegIdx) (y : RegIdx) (n : BitVec 4) : Statement (.drw x y n) :=
  ⟨_, rfl, (selects_op _ _ 13 _ (by decide)).trans (by simp [encode])⟩

theorem skp (x : RegIdx) : Statement (.skp x) :=
  ⟨_, rfl, (selects_op_kk _ _ 14 0x9e _ (by decide)).trans (by simp [encode])⟩

theorem sknp (x : RegIdx) : Statement (.sknp x) :=
  ⟨_, rfl, (selects_op_kk _ _ 14 0xa1 _ (by decide)).trans (by simp [encode])⟩

theorem ldDt (x : RegIdx) : Statement (.ldDt x) :=
  ⟨_, rfl, (selects_op_kk _ _ 15 0x7 _ (by decide)).trans (by simp [encode])⟩

theorem ldKey (x : RegIdx) : Statement (.ldKey x) :=
  ⟨_, rfl, (selects_op_kk _ _ 15 0xa _ (by decide)).trans (by simp [encode])⟩

theorem setDt (x : RegIdx) : Statement (.setDt x) :=
  ⟨_, rfl, (selects_op_kk _ _ 15 0x15 _ (by decide)).trans (by simp [encode])⟩

theorem setSt (x : RegIdx) : Statement (.setSt x) :=
  ⟨_, rfl, (selects_op_kk _ _ 15 0x18 _ (by decide)).trans (by simp [encode])⟩

theorem addI (x : RegIdx) : Statement (.addI x) :=
  ⟨_, rfl, (selects_op_kk _ _ 15 0x1e _ (by decide)).trans (by simp [encode])⟩

theorem ldGlyph (x : RegIdx) : Statement (.ldGlyph x) :=
  ⟨_, rfl, (selects_op_kk _ _ 15 0x29 _ (by decide)).trans (by simp [encode])⟩

theorem bcd (x : RegIdx) : Statement (.bcd x) :=
  ⟨_, rfl, (selects_op_kk _ _ 15 0x33 _ (by decide)).trans (by simp [encode])⟩

theorem dump (x : RegIdx) : Statement (.dump x) :=
  ⟨_, rfl, (selects_op_kk _ _ 15 0x55 _ (by decide)).trans (by simp [encode])⟩

theorem load (x : RegIdx) : Statement (.load x) :=
  ⟨_, rfl, (selects_op_kk _ _ 15 0x65 _ (by decide)).trans (by simp [encode])⟩

theorem nop (w : Word) : Statement (.nop w) := ⟨_, rfl, by simp [OpRow.selects]⟩

end Sys2Proof.Laws.EncodesOwnRow
end

