-- ==== Sys2Proof/Laws/Phase.lean ====
section
/-! SUPPORT. Laws/Phase.lean: no instruction reads or writes the place in the frame, so `exec` commutes with setting
it. This is what links the machine's `step`, which keeps that place, to `Frame` of R170, which does not. -/

namespace Sys2Proof.Machine

theorem noteRead_setPhase (a : Nat) (p : Phase) (s : State) :
    (s.setPhase p).noteRead a = (s.noteRead a).setPhase p := by
  unfold State.noteRead; split <;> rfl

theorem memWrite_setPhase (a : Nat) (b : Byte) (p : Phase) (s : State) :
    memWrite a b (s.setPhase p) = (memWrite a b s).setPhase p := by
  unfold memWrite; split <;> rfl

theorem memWriteList_setPhase (a : Nat) (bs : List Byte) (p : Phase) (s : State) :
    memWriteList a bs (s.setPhase p) = (memWriteList a bs s).setPhase p := by
  induction bs generalizing a s with
  | nil => rfl
  | cons b bs ih => rw [memWriteList, memWrite_setPhase, ih]; rfl

theorem afterFetch_setPhase (p : Phase) (s : State) :
    (s.setPhase p).afterFetch = s.afterFetch.setPhase p := by
  unfold State.afterFetch
  rw [State.setPhase_pc, noteRead_setPhase, noteRead_setPhase]; rfl

theorem popJump_setPhase (p : Phase) (s : State) : popJump (s.setPhase p) = (popJump s).setPhase p := by
  by_cases h : s.sp = 0
  · rw [popJump_ignored _ h, popJump_ignored _ (show (s.setPhase p).sp = 0 from h)]; rfl
  · rw [popJump_accepted _ h, popJump_accepted _ (show (s.setPhase p).sp ≠ 0 from h)]; rfl

theorem pushJump_setPhase (target : Word) (p : Phase) (s : State) :
    pushJump target (s.setPhase p) = (pushJump target s).setPhase p := by
  unfold pushJump; rw [State.setPhase_sp]; split <;> rfl

theorem skipIf_setPhase (c : Bool) (p : Phase) (s : State) :
    skipIf c (s.setPhase p) = (skipIf c s).setPhase p := by
  cases c <;> rfl

theorem logicVF_setPhase (p : Phase) (s : State) : logicVF (s.setPhase p) = (logicVF s).setPhase p := by
  unfold logicVF; rw [State.setPhase_cfg]; split <;> rfl

theorem shiftSource_setPhase (x y : RegIdx) (p : Phase) (s : State) :
    shiftSource x y (s.setPhase p) = (shiftSource x y s).setPhase p := by
  unfold shiftSource; rw [State.setPhase_cfg]; split <;> rfl

theorem advanceI_setPhase (x : RegIdx) (p : Phase) (s : State) :
    advanceI x (s.setPhase p) = (advanceI x s).setPhase p := by
  unfold advanceI; rw [State.setPhase_cfg]; split <;> rfl

theorem dumpRegs_setPhase (rs : List RegIdx) (p : Phase) (s : State) :
    dumpRegs rs (s.setPhase p) = (dumpRegs rs s).setPhase p := by
  induction rs generalizing s with
  | nil => rfl
  | cons r rs ih => rw [dumpRegs, memWrite_setPhase, ih]; rfl

theorem loadRegs_setPhase (rs : List RegIdx) (p : Phase) (s : State) :
    loadRegs rs (s.setPhase p) = (loadRegs rs s).setPhase p := by
  induction rs generalizing s with
  | nil => rfl
  | cons r rs ih =>
    have e : (memRead ((s.setPhase p).dataAddr r.val) (s.setPhase p)).2.setReg r
          (memRead ((s.setPhase p).dataAddr r.val) (s.setPhase p)).1 =
        ((memRead (s.dataAddr r.val) s).2.setReg r (memRead (s.dataAddr r.val) s).1).setPhase p := by
      simp only [memRead, noteRead_setPhase]; rfl
    rw [loadRegs, e, ih]; rfl

theorem drawRows_setPhase (x0 y0 : Nat) (rows : List Nat) (p : Phase) (s : State) (hit : Bool) :
    drawRows x0 y0 rows (s.setPhase p) hit =
      ((drawRows x0 y0 rows s hit).1.setPhase p, (drawRows x0 y0 rows s hit).2) := by
  induction rows generalizing s hit with
  | nil => rfl
  | cons r rs ih =>
    unfold drawRows
    by_cases h : y0 + r < 32
    · simp only [h, dif_pos, memRead, noteRead_setPhase]
      exact ih ((s.noteRead (s.dataAddr r)).setFb _) _
    · simp only [h, dif_neg, not_false_iff]
      by_cases hc : s.cfg.clipSprites = true
      · rw [if_pos hc, if_pos (show (s.setPhase p).cfg.clipSprites = true from hc)]
      · rw [if_neg hc, if_neg (show ¬ (s.setPhase p).cfg.clipSprites = true from hc)]; exact ih s hit

/-- Every meaning commutes with setting the place in the frame. -/
theorem exec_setPhase (i : Instr) (p : Phase) (s t : State) (h : exec i s = .next t) :
    exec i (s.setPhase p) = .next (t.setPhase p) := by
  cases i <;> cases h
  case ret => exact congrArg _ (popJump_setPhase p s)
  case call => exact congrArg _ (pushJump_setPhase _ p s)
  case seImm => exact congrArg _ (skipIf_setPhase _ p s)
  case sneImm => exact congrArg _ (skipIf_setPhase _ p s)
  case seReg => exact congrArg _ (skipIf_setPhase _ p s)
  case sneReg => exact congrArg _ (skipIf_setPhase _ p s)
  case skp => exact congrArg _ (skipIf_setPhase _ p s)
  case sknp => exact congrArg _ (skipIf_setPhase _ p s)
  case orReg x y => exact congrArg _ (logicVF_setPhase p (s.setReg x _))
  case andReg x y => exact congrArg _ (logicVF_setPhase p (s.setReg x _))
  case xorReg x y => exact congrArg _ (logicVF_setPhase p (s.setReg x _))
  case shrReg x y => exact congrArg (fun u => Host.Outcome.next (shiftRightStep x u)) (shiftSource_setPhase x y p s)
  case shlReg x y => exact congrArg (fun u => Host.Outcome.next (shiftLeftStep x u)) (shiftSource_setPhase x y p s)
  case bcd => exact congrArg _ (memWriteList_setPhase _ _ p s)
  case dump x =>
    exact congrArg _ ((congrArg (advanceI x) (dumpRegs_setPhase _ p s)).trans (advanceI_setPhase x p _))
  case load x =>
    exact congrArg _ ((congrArg (advanceI x) (loadRegs_setPhase _ p s)).trans (advanceI_setPhase x p _))
  case drw x y n =>
    exact congrArg (fun q : State × Bool => Host.Outcome.next (q.1.setVF (flagByte q.2)))
      (drawRows_setPhase ((s.reg x).toNat % 64) ((s.reg y).toNat % 32) (List.range n.toNat) p s false)
  all_goals rfl

end Sys2Proof.Machine
end

