-- ==== Sys2Proof/Tests/Slice0.lean ====
section
/-! SUPPORT. Tests/Slice0.lean: ill-formed terms refused; a word of every row, written out from spec/30_encoding.md;
one step of most instructions against the vectors of spec/95_test_vectors.md (their ids in the comments); and, for
each statement with hypotheses, a state and operands that meet them. No expected value comes from the model. -/

open Sys2Proof Sys2Proof.Machine Sys2Proof.Claims

namespace Sys2Proof.Tests

/-! ## WellFormed: its one check, and what passes it -/

theorem test_wf_refuses_nop_of_cls : (Instr.nop 0x00E0).wf = false := by decide

theorem test_wf_refuses_nop_of_family_5 : (Instr.nop 0x512F).wf = false := by decide

theorem test_wf_refuses_nop_of_family_8 : (Instr.nop 0x8A56).wf = false := by decide

theorem test_wf_refuses_nop_of_family_F : (Instr.nop 0xF365).wf = false := by decide

theorem test_wf_admits_nop : (Instr.nop 0x8A58).wf = true := by decide

/-! ## Decode: a word of every row of R66, from its fields in R61 and R62 -/

theorem test_decode_control : decode 0b0000000011101110 = .ret ∧ decode 0b0001111111111111 = .jp 0xFFF ∧
    decode 0b0010001000010000 = .call 0x210 ∧ decode 0b1011001100000000 = .jpOff 0x300 := by decide

theorem test_decode_skips : decode 0b0011000111110000 = .seImm 1 0xF0 ∧ decode 0b0100001000010001 = .sneImm 2 0x11 ∧
    decode 0b0101000111100000 = .seReg 1 14 0 ∧ decode 0b1001111100010111 = .sneReg 15 1 7 ∧
    decode 0b1110001110011110 = .skp 3 ∧ decode 0b1110001110100001 = .sknp 3 := by decide

theorem test_decode_immediates : decode 0b0110101001111111 = .ldImm 10 0x7F ∧
    decode 0b0111000000000010 = .addImm 0 2 ∧ decode 0b1100000000001111 = .rnd 0 0x0F := by decide

theorem test_decode_family8 : decode 0b1000000100100000 = .ldReg 1 2 ∧ decode 0b1000000100100001 = .orReg 1 2 ∧
    decode 0b1000000100100010 = .andReg 1 2 ∧ decode 0b1000000100100011 = .xorReg 1 2 ∧
    decode 0b1000000100100100 = .addReg 1 2 ∧ decode 0b1000000100100101 = .subReg 1 2 ∧
    decode 0b1000000100100110 = .shrReg 1 2 ∧ decode 0b1000000100100111 = .subnReg 1 2 ∧
    decode 0b1000000100101110 = .shlReg 1 2 := by decide

theorem test_decode_memory : decode 0b1010001100000000 = .ldI 0x300 ∧ decode 0b1111110000011110 = .addI 12 ∧
    decode 0b1111001000101001 = .ldGlyph 2 ∧ decode 0b1111000000110011 = .bcd 0 ∧
    decode 0b1111111101010101 = .dump 15 ∧ decode 0b1111001001100101 = .load 2 := by decide

theorem test_decode_draw_timer_key : decode 0b0000000011100000 = .cls ∧ decode 0b1101000100101111 = .drw 1 2 15 ∧
    decode 0b1111001100000111 = .ldDt 3 ∧ decode 0b1111001100001010 = .ldKey 3 ∧
    decode 0b1111000100010101 = .setDt 1 ∧ decode 0b1111000100011000 = .setSt 1 := by decide

/-- R65: a no-op in each family that has one. -/
theorem test_decode_nop : decode 0x0123 = .nop 0x0123 ∧ decode 0x01E0 = .nop 0x01E0 ∧ decode 0x801F = .nop 0x801F ∧
    decode 0xE09F = .nop 0xE09F ∧ decode 0xF085 = .nop 0xF085 := by decide

theorem test_decode_bytes : decodeBytes [0x12, 0x0A, 0xFF] = .ok (.jp 0x20A, [0xFF]) ∧
    decodeBytes [0x12] = .error .truncated := by decide

theorem test_encode : encode (.drw 1 2 5) = 0xD125 ∧ encode (.shlReg 0 1) = 0x801E ∧ encode (.skp 3) = 0xE39E ∧
    encodeBytes (.ldI 0x30C) = [0xA3, 0x0C] := by decide

/-! ## The states the vectors start from -/

/-- All six toggles false, ten instructions a frame, the conventional font. -/
def plainCfg : Config where
  vfResetOnLogic := false
  memoryIncrementsI := false
  haltBeforeDraw := false
  clipSprites := false
  shiftUsesVy := false
  jumpUsesVx := false
  instructionsPerFrame := 10
  font := conventionalFont

/-- All six toggles true. -/
def quirkCfg : Config :=
  { plainCfg with vfResetOnLogic := true, memoryIncrementsI := true, haltBeforeDraw := true, clipSprites := true,
                  shiftUsesVy := true, jumpUsesVx := true }

/-- `Reset` of an empty program, all toggles false. -/
def boot : State := { State.reset with cfg := plainCfg }

/-- `Reset` of an empty program, all toggles true. -/
def bootQ : State := { State.reset with cfg := quirkCfg }

/-- `boot` with three registers set. -/
def withRegs (s : State) (v0 v1 vF : Byte) : State := ((s.setReg 0 v0).setReg 1 v1).setVF vF

/-- The state after one `Step()`. -/
def stepOnce (s : State) : State :=
  match cpuStep s with
  | .next t => t
  | .fault _ => s
  | .refused _ => s

/-- One `Step()` of a word placed where the next fetch reads. -/
def run1 (w : Word) (s : State) : State := stepOnce (placeInstr w s)

/-! ## Control flow (vectors 2.1) -/

/-- T-CF1. -/
theorem test_nop : (run1 0x0123 boot).pc = 0x0202 ∧ (run1 0x0123 boot).diags = [] := by decide

/-- T-CF2. -/
theorem test_jump : (run1 0x1ABC boot).pc = 0x0ABC := by decide

/-- T-CF3, the call at 0x204. -/
theorem test_call :
    let t := run1 0x2210 (boot.setPc 0x204)
    t.stack[0] = 0x0206 ∧ t.sp = 1 ∧ t.pc = 0x0210 := by decide

/-- T-CF5, the sixteenth call. -/
theorem test_call_at_depth_15 :
    let t := run1 0x2220 ((boot.setPc 0x21E).setSp 15)
    t.stack[15] = 0 ∧ t.sp = 15 ∧ t.pc = 0x0220 ∧ t.diags = [.stackOverflow] := by decide

/-- T-CF6. -/
theorem test_return :
    let t := run1 0x00EE ((boot.setSp 1).setSlot 0 0x0ABD)
    t.pc = 0x0ABD ∧ t.sp = 0 ∧ t.stack[0] = 0x0ABD := by decide

/-- T-CF4. -/
theorem test_return_at_depth_0 :
    let t := run1 0x00EE boot
    t.pc = 0x0202 ∧ t.sp = 0 ∧ t.diags = [.stackUnderflow] := by decide

/-- T-CF7. -/
theorem test_offset_jump :
    (run1 0xB300 ((boot.setReg 0 0x04).setReg 3 0x10)).pc = 0x0304 ∧
    (run1 0xB300 ((bootQ.setReg 0 0x04).setReg 3 0x10)).pc = 0x0310 := by decide

/-- T-CF8. -/
theorem test_offset_jump_wraps : (run1 0xBFFF (boot.setReg 0 0x02)).pc = 0x0001 := by decide

/-- T-CF9, T-CF12: a fetch with one byte, and with both bytes, out of range. -/
theorem test_fetch_out_of_range :
    stepOnce (memWrite 0xFFF 0x12 (boot.setPc 0xFFF)) =
      (memWrite 0xFFF 0x12 (boot.setPc 0x200)).addDiag .memReadOor ∧
    stepOnce (boot.setPc 0xFFFF) = ((boot.setPc 0x0001).addDiag .memReadOor).addDiag .memReadOor := by decide

/-! ## Arithmetic and logic (vectors 2.2) -/

/-- T-AL1. -/
theorem test_load_immediate : (run1 0x6A7F boot).reg 10 = 0x7F := by decide

/-- T-AL2. -/
theorem test_add_immediate :
    (run1 0x7002 (withRegs boot 0xFF 0 1)).reg 0 = 0x01 ∧ (run1 0x7002 (withRegs boot 0xFF 0 1)).reg 15 = 1 := by
  decide

/-- T-AL3. -/
theorem test_copy : (run1 0x8010 (withRegs boot 0 0x2A 0)).reg 0 = 0x2A := by decide

/-- T-AL4, `8011`. -/
theorem test_or :
    (run1 0x8011 (withRegs boot 0xF0 0x3C 1)).reg 0 = 0xFC ∧ (run1 0x8011 (withRegs boot 0xF0 0x3C 1)).reg 15 = 1 ∧
    (run1 0x8011 (withRegs bootQ 0xF0 0x3C 1)).reg 15 = 0 := by decide

/-- T-AL5. -/
theorem test_or_into_vf :
    (run1 0x8F11 (withRegs bootQ 0 0xF0 0x0F)).reg 15 = 0x00 ∧
    (run1 0x8F11 (withRegs boot 0 0xF0 0x0F)).reg 15 = 0xFF := by decide

/-- T-AL4, `8012`. -/
theorem test_and :
    (run1 0x8012 (withRegs boot 0xF0 0x3C 1)).reg 0 = 0x30 ∧ (run1 0x8012 (withRegs boot 0xF0 0x3C 1)).reg 15 = 1 ∧
    (run1 0x8012 (withRegs bootQ 0xF0 0x3C 1)).reg 15 = 0 := by decide

/-- T-AL4, `8013`. -/
theorem test_xor :
    (run1 0x8013 (withRegs boot 0xF0 0x3C 1)).reg 0 = 0xCC ∧ (run1 0x8013 (withRegs boot 0xF0 0x3C 1)).reg 15 = 1 ∧
    (run1 0x8013 (withRegs bootQ 0xF0 0x3C 1)).reg 15 = 0 := by decide

/-- T-AL7. -/
theorem test_add :
    (run1 0x8014 (withRegs boot 0xFF 0x01 0)).reg 0 = 0x00 ∧ (run1 0x8014 (withRegs boot 0xFF 0x01 0)).reg 15 = 1 := by
  decide

/-- T-AL11, T-AL12. -/
theorem test_add_into_vf :
    (run1 0x8F14 (withRegs boot 0 0x03 0x05)).reg 15 = 0 ∧ (run1 0x8F14 (withRegs boot 0 0x01 0xFF)).reg 15 = 1 := by
  decide

/-- T-AL14. -/
theorem test_subtract :
    (run1 0x8015 (withRegs boot 0x00 0x01 1)).reg 0 = 0xFF ∧ (run1 0x8015 (withRegs boot 0x00 0x01 1)).reg 15 = 0 := by
  decide

/-- T-AL15. -/
theorem test_subtract_equal :
    (run1 0x8015 (withRegs boot 0x05 0x05 0)).reg 0 = 0x00 ∧ (run1 0x8015 (withRegs boot 0x05 0x05 0)).reg 15 = 1 := by
  decide

/-- T-AL19. -/
theorem test_reverse_subtract :
    (run1 0x8017 (withRegs boot 0x05 0x01 1)).reg 0 = 0xFC ∧ (run1 0x8017 (withRegs boot 0x05 0x01 1)).reg 15 = 0 := by
  decide

/-- T-AL20. -/
theorem test_shift_right :
    (run1 0x8016 (withRegs boot 0x05 0x08 0)).reg 0 = 0x02 ∧ (run1 0x8016 (withRegs boot 0x05 0x08 0)).reg 15 = 1 ∧
    (run1 0x8016 (withRegs bootQ 0x05 0x08 1)).reg 0 = 0x04 ∧
    (run1 0x8016 (withRegs bootQ 0x05 0x08 1)).reg 15 = 0 := by decide

/-- T-AL22. -/
theorem test_shift_right_vf : (run1 0x8F06 (withRegs boot 0 0 0x03)).reg 15 = 0 := by decide

/-- T-AL25, T-AL27. -/
theorem test_shift_left :
    (run1 0x800E (withRegs boot 0x81 0 0)).reg 0 = 0x02 ∧ (run1 0x800E (withRegs boot 0x81 0 0)).reg 15 = 1 ∧
    (run1 0x801E (withRegs bootQ 0x01 0xC0 0)).reg 0 = 0x80 ∧
    (run1 0x801E (withRegs bootQ 0x01 0xC0 0)).reg 15 = 1 := by decide

/-- T-AL28. -/
theorem test_shift_left_vf :
    (run1 0x8F0E (withRegs boot 0 0 0x80)).reg 15 = 2 ∧ (run1 0x8F0E (withRegs boot 0 0 0x7F)).reg 15 = 0 := by decide

/-- T-AL30, with the draw committed. -/
theorem test_random :
    (run1 0xC00F { boot with drawInputs := [0xA7, 0x11] }).reg 0 = 0x07 ∧
    (run1 0xC00F { boot with drawInputs := [0xA7, 0x11] }).drawInputs = [0x11] := by decide

/-! ## Skips (vectors 2.3) -/

/-- T-SK1. -/
theorem test_skip_equal_immediate :
    (run1 0x3000 boot).pc = 0x0204 ∧ (run1 0x3000 (boot.setReg 0 1)).pc = 0x0202 := by decide

/-- T-SK2. -/
theorem test_skip_not_equal_immediate :
    (run1 0x4210 (boot.setReg 2 0x10)).pc = 0x0202 ∧ (run1 0x4211 (boot.setReg 2 0x10)).pc = 0x0204 := by decide

/-- T-SK3, T-SK6. -/
theorem test_skip_registers_equal :
    (run1 0x5010 (withRegs boot 7 7 0)).pc = 0x0204 ∧ (run1 0x5010 (withRegs boot 7 8 0)).pc = 0x0202 ∧
    (run1 0x5015 (withRegs boot 7 7 0)).pc = 0x0204 := by decide

/-- T-SK4, T-SK5. -/
theorem test_skip_registers_differ :
    (run1 0x9010 (withRegs boot 7 8 0)).pc = 0x0204 ∧ (run1 0x9010 (withRegs boot 7 7 0)).pc = 0x0202 ∧
    (run1 0x9330 boot).pc = 0x0202 := by decide

/-- T-SK7, T-SK8, T-SK9 for `Ex9E`: `keys` of 0x20 is the set with key 5 alone. -/
theorem test_skip_key_held :
    (run1 0xE39E ((boot.setKeys 0x20).setReg 3 5)).pc = 0x0204 ∧ (run1 0xE39E (boot.setReg 3 5)).pc = 0x0202 ∧
    (run1 0xE39E ((boot.setKeys 0x20).setReg 3 0x15)).pc = 0x0204 := by decide

/-- T-SK7, T-SK8 for `ExA1`. -/
theorem test_skip_key_not_held :
    (run1 0xE3A1 ((boot.setKeys 0x20).setReg 3 5)).pc = 0x0202 ∧ (run1 0xE3A1 (boot.setReg 3 5)).pc = 0x0204 := by
  decide

/-! ## Memory group (vectors 2.4) -/

/-- T-ME1. -/
theorem test_load_address : (run1 0xAFFF boot).i = 0x0FFF := by decide

/-- T-ME2, T-ME3. -/
theorem test_add_to_address :
    (run1 0xF01E ((boot.setI 0x300).setReg 0 0x10)).i = 0x0310 ∧
    (run1 0xF01E ((boot.setI 0xFFF).setReg 0 0x02)).i = 0x0001 ∧
    (run1 0xF01E ((boot.setI 0xFFF).setReg 0 0x02)).reg 15 = 0 := by decide

/-- T-ME4. -/
theorem test_glyph_address : (run1 0xF229 (boot.setReg 2 0x1A)).i = 0x0032 := by decide

/-- S4. -/
theorem test_bcd :
    let t := run1 0xF033 ((boot.setI 0x300).setReg 0 234)
    t.peek 0x300 = 2 ∧ t.peek 0x301 = 3 ∧ t.peek 0x302 = 4 ∧ t.i = 0x300 := by decide

/-- T-ME6. -/
theorem test_bcd_at_top :
    let t := run1 0xF033 ((boot.setI 0xFFE).setReg 0 0xFF)
    t.peek 0xFFE = 2 ∧ t.peek 0xFFF = 5 ∧ t.diags = [.memWriteOor] := by decide

/-- T-ME7, toggle false. -/
theorem test_dump :
    let t := run1 0xF255 (((withRegs (boot.setI 0x300) 1 2 0).setReg 2 3).setReg 3 4)
    t.peek 0x300 = 1 ∧ t.peek 0x301 = 2 ∧ t.peek 0x302 = 3 ∧ t.peek 0x303 = 0 ∧ t.i = 0x300 := by decide

/-- T-ME8. -/
theorem test_dump_at_top :
    let t := run1 0xF155 (withRegs (bootQ.setI 0xFFF) 0xAB 0xCD 0)
    t.peek 0xFFF = 0xAB ∧ t.diags = [.memWriteOor] ∧ t.i = 0x0001 := by decide

/-- T-ME11. -/
theorem test_load_at_top :
    let t := run1 0xF165 (withRegs (memWrite 0xFFF 0x77 (boot.setI 0xFFF)) 9 9 0)
    t.reg 0 = 0x77 ∧ t.reg 1 = 0 ∧ t.diags = [.memReadOor] ∧ t.i = 0xFFF := by decide

/-- T-ME12. -/
theorem test_load_font :
    let t := run1 0xF465 boot
    t.reg 0 = 0xF0 ∧ t.reg 1 = 0x90 ∧ t.reg 4 = 0xF0 ∧ t.reg 5 = 0 := by decide

/-! ## Draw (vectors 2.5) -/

/-- T-DR1. -/
theorem test_clear_screen : fbGet (run1 0x00E0 (boot.setFb (fbSet fbClear 3 3 true))).fb 3 3 = false := by decide

/-- A state about to draw the byte `b` at (`x`, `y`). -/
def drawing (s : State) (b x y : Byte) : State := withRegs (memWrite 0x300 b (s.setI 0x300)) x y 1

/-- T-DR2: column 60 is set, column 3 only when not clipping, VF ends 0. -/
theorem test_draw_wraps_or_clips :
    fbGet (run1 0xD011 (drawing boot 0xFF 60 0)).fb 60 0 = true ∧
    fbGet (run1 0xD011 (drawing boot 0xFF 60 0)).fb 3 0 = true ∧
    fbGet (run1 0xD011 (drawing bootQ 0xFF 60 0)).fb 63 0 = true ∧
    fbGet (run1 0xD011 (drawing bootQ 0xFF 60 0)).fb 0 0 = false ∧
    (run1 0xD011 (drawing boot 0xFF 60 0)).reg 15 = 0 := by decide

/-- T-DR5: bit 7 is the leftmost pixel; a set pixel under a set bit is cleared and collides. -/
theorem test_draw_collides :
    let t := run1 0xD011 (drawing (boot.setFb (fbSet (fbSet fbClear 3 0 true) 4 0 true)) 0xF0 0 0)
    fbGet t.fb 0 0 = true ∧ fbGet t.fb 3 0 = false ∧ fbGet t.fb 4 0 = true ∧ t.reg 15 = 1 := by decide

/-! ## Timers, key wait, frames (vectors 2.6) -/

/-- T-TK1. -/
theorem test_read_delay : (run1 0xF307 (boot.setDt 0x2A)).reg 3 = 0x2A := by decide

/-- T-TK2, `F115`. -/
theorem test_set_delay : (run1 0xF115 (boot.setReg 1 5)).dt = 5 := by decide

/-- T-TK2, `F118`. -/
theorem test_set_sound :
    (run1 0xF118 (boot.setReg 1 5)).st = 5 ∧ (run1 0xF118 (boot.setReg 1 5)).soundEnable = false := by decide

/-- T-TK5. -/
theorem test_wait_for_key :
    let t := run1 0xF30A (boot.setKeysObserved 0x84)
    t.keyWaiting = true ∧ t.keyTarget = 3 ∧ t.keysObserved = 0 ∧ t.reg 3 = 0 ∧ t.pc = 0x0202 := by decide

/-- A waiting state with target 3 and the observed set given. -/
def waiting (obs : Keys) : State := ((boot.setKeyWaiting true).setKeyTarget 3).setKeysObserved obs

/-- T-TK6, T-TK7, T-TK8: sets {2, 7}, {} and {2}. -/
theorem test_key_service :
    (keyService 0x84 (waiting 0)).keysObserved = 0x84 ∧ (keyService 0x84 (waiting 0)).keyWaiting = true ∧
    (keyService 0 (waiting 0x84)).reg 3 = 2 ∧ (keyService 0 (waiting 0x84)).keyWaiting = false ∧
    (keyService 0x04 (waiting 0x84)).reg 3 = 7 := by decide

/-- T-TK3, T-TK4. -/
theorem test_tick : (tick (tick (boot.setDt 1))).dt = 0 ∧ (tick (boot.setDt 0xFF)).dt = 0xFE ∧
    (tick (boot.setDt 1)).soundEnable = false := by decide

/-- T-TK13: a waiting machine, `ST` 2, three frames with no key held. -/
theorem test_sound_while_waiting :
    (tick (waiting 0 |>.setSt 2)).soundEnable = true ∧ (tick (tick (waiting 0 |>.setSt 2))).soundEnable = true ∧
    (tick (tick (tick (waiting 0 |>.setSt 2)))).soundEnable = false := by decide

/-- Program P4 under `halt_before_draw`: a draw that is next ends a frame in which an instruction has run (here the
third), and is the first instruction of the frame after it. -/
theorem test_halt_before_draw :
    loopEnds 3 7 (placeInstr 0xD011 bootQ) = true ∧ loopEnds 0 10 (placeInstr 0xD011 bootQ) = false ∧
    loopEnds 3 7 (placeInstr 0xD011 boot) = false ∧ loopEnds 3 7 (placeInstr 0x00E0 bootQ) = false := by decide

/-- T-TK12: a budget of 0 runs no instruction. -/
theorem test_zero_budget : loopEnds 0 0 boot = true := by decide

/-- R181, R32: the program's bytes from 0x200, the font below, zeros between and above. -/
theorem test_reset_with :
    let t := State.resetWith plainCfg [0x12, 0x34]
    t.peek 0x200 = 0x12 ∧ t.peek 0x201 = 0x34 ∧ t.peek 0x202 = 0 ∧ t.peek 79 = 0x80 ∧ t.peek 80 = 0 ∧
      t.pc = 0x200 := by decide

/-! ## Witnesses: for each statement with hypotheses, values that meet them -/

/-- `boot` inside the instruction loop, three instructions run. -/
def inLoop : State := boot.setPhase (.running 3 7)

theorem witness_DecodeOfEncode : (Instr.drw 15 15 15).wf = true ∧ (Instr.nop 0x8A58).wf = true := by decide

theorem witness_OpcodeRowsDoNotOverlap :
    opRows[0]? = some ⟨"00E0", 0xFFFF, 0x00E0⟩ ∧ (OpRow.mk "00E0" 0xFFFF 0x00E0).selects 0x00E0 = true ∧
    opRows[33]? = some ⟨"Fx65", 0xF0FF, 0xF065⟩ ∧ (OpRow.mk "Fx65" 0xF0FF 0xF065).selects 0xFF65 = true := by decide

/-- A word of each of the four kinds, at an edge of its range. -/
theorem witness_UnrecognisedWordsAreNoOps :
    recognised 0x0000 = false ∧ recognised 0x0FFF = false ∧ recognised 0x8FFF = false ∧ recognised 0x8008 = false ∧
    recognised 0xE000 = false ∧ recognised 0xF0FF = false ∧ recognised 0x00E0 = true ∧ recognised 0x800E = true := by
  decide

theorem witness_Families5And9IgnoreLowNibble :
    (fieldOp 0x5120 = 0x5 ∧ fieldOp 0x512F = fieldOp 0x5120 ∧ fieldX 0x512F = fieldX 0x5120 ∧
      fieldY 0x512F = fieldY 0x5120) ∧
    (fieldOp 0x9FF0 = 0x9 ∧ fieldOp 0x9FF1 = fieldOp 0x9FF0 ∧ fieldX 0x9FF1 = fieldX 0x9FF0 ∧
      fieldY 0x9FF1 = fieldY 0x9FF0) := by decide

/-- `60FF` at 0x200; and `1000`, the low byte read out of range, at 0xFFF. -/
theorem witness_StepRunsDecodedInstruction :
    AboutToRun (memWriteList 0x200 [0x60, 0xFF] inLoop) 3 7 ∧ (Instr.ldImm 0 0xFF).wf = true ∧
    encode (.ldImm 0 0xFF) = (memWriteList 0x200 [0x60, 0xFF] inLoop).peek 0x200 ++
      (memWriteList 0x200 [0x60, 0xFF] inLoop).peek 0x201 ∧
    AboutToRun (memWrite 0xFFF 0x10 (inLoop.setPc 0xFFF)) 3 7 ∧
    encode (.jp 0) = (memWrite 0xFFF 0x10 (inLoop.setPc 0xFFF)).peek 0xFFF ++
      (memWrite 0xFFF 0x10 (inLoop.setPc 0xFFF)).peek 0x1000 := by
  unfold AboutToRun; decide

theorem boot_wf : Memory.wf boot.cfg.font boot.mem := by decide

theorem bootQ_wf : Memory.wf bootQ.cfg.font bootQ.mem := by decide

/-- In range; at the last pair of bytes; and where `pc` has no pair of bytes. -/
theorem witness_PlacedWordIsRunNext :
    Memory.wf boot.cfg.font boot.mem ∧
    Memory.wf (boot.setPc 0xFFE).cfg.font (boot.setPc 0xFFE).mem ∧
    Memory.wf (waiting 0 |>.setPc 0xFFFF).cfg.font (waiting 0 |>.setPc 0xFFFF).mem := by decide

theorem witness_StepFunctionOfR60 : (waiting 0).keyWaiting = true ∧ boot.keyWaiting = false := by decide

theorem witness_ConfigurationNeverChanges : RunsTo 0 boot boot ∧ ∃ t, RunsTo 1 boot t :=
  ⟨rfl, _, _, rfl, rfl⟩

/-- An instruction that writes nothing but `V`, and one that writes no `V` and takes no draw. -/
theorem witness_EachPieceOfStateHasItsWriters :
    (∃ t, exec (.ldImm 15 1) boot = .next t ∧ writesPc (.ldImm 15 1) = false ∧
      writesI boot.cfg (.dump 15) = false ∧ mayRecord (.ldImm 15 1) = false) ∧
    ∃ t, exec (.dump 15) boot = .next t ∧ destination (.dump 15) = none ∧
      writesFlag boot.cfg (.dump 15) = false ∧ ∀ x kk, Instr.dump 15 ≠ .rnd x kk :=
  ⟨⟨_, rfl, rfl, rfl, rfl⟩, _, rfl, rfl, rfl, nofun⟩

theorem witness_OnlyFlagWritersChangeVF :
    (∃ t, exec (.orReg 14 15) boot = .next t ∧ writesFlag boot.cfg (.orReg 14 15) = false ∧
      destination (.orReg 14 15) ≠ some 15) ∧
    ∃ t, exec (.load 14) bootQ = .next t ∧ writesFlag bootQ.cfg (.load 14) = false ∧
      destination (.load 14) ≠ some 15 := ⟨⟨_, rfl, rfl, by decide⟩, _, rfl, rfl, by decide⟩

/-- Two states that differ in every piece a program cannot read. -/
theorem witness_UnreadableStateDoesNotLeak :
    let s' := ((waiting 0xFFFF).setSt 1).setSoundEnable true |>.addDiag .memReadOor
    hideUnreadable boot = hideUnreadable s' ∧ boot ≠ s' ∧
      (∃ t, exec (.ldKey 3) boot = .next t) ∧ ∃ t, exec (.ldKey 3) s' = .next t :=
  ⟨rfl, by decide, ⟨_, rfl⟩, _, rfl⟩

theorem witness_OffsetJumpAddsSelectedRegister : fieldOp 0xBFFF = 0xB ∧ fieldOp 0xB000 = 0xB := by decide

/-- Depths 0, 14 (the last accepted) and 15 (the first ignored). -/
theorem witness_CallPushesOrIsIgnored : boot.sp ≠ 15 ∧ (boot.setSp 14).sp ≠ 15 ∧ (boot.setSp 15).sp = 15 := by decide

/-- Depths 15, 1 (the last accepted) and 0 (the ignored). -/
theorem witness_ReturnPopsOrIsIgnored :
    (boot.setSp 15).sp.val = (14 : Fin 16).val + 1 ∧ (boot.setSp 1).sp.val = (0 : Fin 16).val + 1 ∧
    boot.sp = 0 := by decide

theorem witness_ReturnUndoesCall :
    ∃ t, (boot.setSp 14).sp ≠ 15 ∧ exec (.call 0xFFF) (boot.setSp 14) = .next t ∧
      (t.setReg 15 1).stack = t.stack ∧ (t.setReg 15 1).sp = t.sp := ⟨_, by decide, rfl, rfl, rfl⟩

theorem witness_FifteenNestedCallsAreAccepted : boot.sp = 0 := by decide

theorem witness_SelfJumpIsIdle :
    let s := memWriteList 0xFFE [0x1F, 0xFE] (inLoop.setPc 0xFFE)
    AboutToRun s 3 7 ∧ s.pc.toNat = (0xFFE : BitVec 12).toNat ∧ (0xFFE : BitVec 12).toNat + 1 < 4096 ∧
      encode (.jp 0xFFE) = s.peek s.pc.toNat ++ s.peek (s.pc.toNat + 1) := by
  unfold AboutToRun; decide

/-- VF as the destination with the toggle on, with it off, and another destination. -/
theorem witness_LogicCombinesAndResetsVF :
    (bootQ.cfg.vfResetOnLogic = true ∧ ¬ (bootQ.cfg.vfResetOnLogic = true ∧ (14 : RegIdx) = 15)) ∧
    (boot.cfg.vfResetOnLogic = false ∧ (14 : RegIdx) ≠ 15) := by decide

theorem witness_ArithmeticAndShifts : (14 : RegIdx) ≠ 15 ∧ ∃ x : RegIdx, x = 15 := ⟨by decide, 15, rfl⟩

theorem witness_RandomWritesMaskedDraw :
    ({ boot with drawInputs := [0xA7] } : State).drawInputs = 0xA7 :: [] := by decide

/-- The last address that exists and the first that does not. -/
theorem witness_BoundsCheckedMemory : Memory.wf boot.cfg.font boot.mem ∧ 4095 < 4096 ∧ 4096 ≤ 4096 ∧ 0 ≠ 4095 := by
  decide

/-- Two lists in the form that read the same everywhere: the two orders of writing two bytes. -/
theorem witness_EqualReadsMeanEqualMemories :
    let m := Memory.write conventionalFont (Memory.write conventionalFont [] 0 1) 0x200 2
    let n := Memory.write conventionalFont (Memory.write conventionalFont [] 0x200 2) 0 1
    Memory.wf conventionalFont m ∧ Memory.wf conventionalFont n ∧
      ∀ a, Memory.read conventionalFont m a = Memory.read conventionalFont n a :=
  ⟨by decide, by decide, fun _ => rfl⟩

/-- `I` of 0xFFD (all three digits land), and of 0xFFF (the last two are dropped). -/
theorem witness_BcdStoresThreeDigits :
    Memory.wf (boot.setI 0xFFD).cfg.font (boot.setI 0xFFD).mem ∧ (boot.setI 0xFFD).dataAddr 0 < 4096 ∧
    (boot.setI 0xFFD).dataAddr 1 < 4096 ∧ (boot.setI 0xFFD).dataAddr 2 < 4096 ∧
    ¬ (boot.setI 0xFFF).dataAddr 1 < 4096 := by decide

theorem witness_DumpStoresRegisters :
    Memory.wf (boot.setI 0xFF0).cfg.font (boot.setI 0xFF0).mem ∧ (15 : RegIdx) ≤ 15 ∧
    (boot.setI 0xFF0).dataAddr 15 < 4096 ∧ (∀ r : RegIdx, r ≤ 15 → 0x200 ≠ (boot.setI 0xFF0).dataAddr r.val) := by
  decide

theorem witness_LoadReadsRegisters :
    (15 : RegIdx) ≤ 15 ∧ 4096 ≤ (boot.setI 0xFF1).dataAddr 15 ∧ ¬ 4096 ≤ (boot.setI 0xFF0).dataAddr 15 := by decide

/-- `I` at `pc` of 0xFFE, so that both fetched bytes, the last of memory, are stored over; `I` at 0xFFF, one past
`pc`, so that only the low one is; `pc` at 0xFFF, so that only the high one can be; and `I` where `Fx33`'s tens and
units, or units alone, land on the word. -/
theorem witness_NextFetchSeesStores :
    let s := (boot.setPc 0xFFE).setI 0xFFE
    let u := (boot.setPc 0xFFE).setI 0xFFF
    let w := (boot.setPc 0xFFF).setI 0xFFF
    let y := (boot.setPc 0xFFE).setI 0xFFD
    let z := (boot.setPc 0xFFE).setI 0xFFC
    (Memory.wf s.cfg.font s.mem ∧ Memory.wf u.cfg.font u.mem ∧ Memory.wf w.cfg.font w.mem) ∧
    ((∃ t, exec (.dump 1) s = .next t) ∧ (∃ t, exec (.dump 0) u = .next t) ∧ (∃ t, exec (.bcd 1) y = .next t)) ∧
    (s.pc.toNat + 1 < 4096 ∧ s.dataAddr (0 : RegIdx).val = s.pc.toNat ∧
      s.dataAddr (1 : RegIdx).val = s.pc.toNat + 1) ∧
    (u.dataAddr (0 : RegIdx).val = u.pc.toNat + 1 ∧ ∀ r : RegIdx, r ≤ 0 → u.dataAddr r.val ≠ u.pc.toNat) ∧
    (w.pc.toNat < 4096 ∧ ¬ w.pc.toNat + 1 < 4096 ∧ w.dataAddr 0 = w.pc.toNat) ∧
    (y.dataAddr 1 = y.pc.toNat ∧ y.dataAddr 2 = y.pc.toNat + 1) ∧
    z.dataAddr 2 = z.pc.toNat ∧ ∀ k < 3, z.dataAddr k ≠ z.pc.toNat + 1 :=
  ⟨by decide, ⟨⟨_, rfl⟩, ⟨_, rfl⟩, _, rfl⟩, by decide, by decide, by decide, by decide, by decide⟩

/-- R54 with `Fx33`: the tens and the units of 234 are the next word fetched. -/
theorem test_fetch_sees_bcd :
    (run1 0xF033 ((boot.setI 0x201).setReg 0 234)).fetchWord = 0x0304 := by decide

theorem witness_LoadAfterDumpRestoresRegisters :
    ∃ t w, Memory.wf (bootQ.setI 0xFF0).cfg.font (bootQ.setI 0xFF0).mem ∧
      exec (.dump 15) (bootQ.setI 0xFF0) = .next t ∧ (t.setI 0xFF0).mem = t.mem ∧ (t.setI 0xFF0).cfg = t.cfg ∧
      (t.setI 0xFF0).i = (bootQ.setI 0xFF0).i ∧ exec (.load 15) (t.setI 0xFF0) = .next w ∧
      (15 : RegIdx) ≤ 15 ∧ (bootQ.setI 0xFF0).dataAddr 15 < 4096 :=
  ⟨advanceI 15 (dumpRegs (regsUpTo 15) (bootQ.setI 0xFF0)),
    advanceI 15 (loadRegs (regsUpTo 15) ((advanceI 15 (dumpRegs (regsUpTo 15) (bootQ.setI 0xFF0))).setI 0xFF0)),
    bootQ_wf, rfl, State.setI_mem _ _, State.setI_cfg _ _, rfl, rfl, by decide, by decide⟩

/-- A sprite byte 0xFF at column 60: wrapped it covers column 3, clipped it does not; column 59 is under neither. -/
theorem witness_SpriteCovers :
    SpriteCovers 0 1 1 (drawing boot 0xFF 60 31) 3 31 ∧ SpriteCovers 0 1 1 (drawing bootQ 0xFF 60 31) 63 31 ∧
    ¬ SpriteCovers 0 1 1 (drawing bootQ 0xFF 60 31) 3 31 := by
  refine ⟨⟨0, 7, by decide⟩, ⟨0, 3, by decide⟩, ?_⟩
  rintro ⟨row, col, h1, h2, -, h4, -⟩
  have h1 : row < 1 := h1
  have h4 : 3 = 60 + col := h4
  omega

/-- A covered pixel that was set, a covered pixel that was clear, and a state in which every covered pixel is clear. -/
theorem witness_DrawXorsSprite :
    let s := (drawing boot 0xFF 60 31).setFb (fbSet fbClear 3 31 true)
    (∃ c r, SpriteCovers 0 1 1 s c r ∧ fbGet s.fb c r = true) ∧
    (∃ c r, SpriteCovers 0 1 1 s c r ∧ fbGet s.fb c r = false) ∧
    (∀ c r, SpriteCovers 0 1 0 s c r → fbGet s.fb c r = false) :=
  ⟨⟨3, 31, ⟨0, 7, by decide⟩, by decide⟩, ⟨2, 31, ⟨0, 6, by decide⟩, by decide⟩,
    fun _ _ ⟨_, _, h, _⟩ => absurd h (Nat.not_lt_zero _)⟩

theorem boot_clear (c : Fin 64) (r : Fin 32) : fbGet boot.fb c r = false := by
  simp [fbGet, boot, State.reset]

theorem witness_DrawingTwiceRestoresScreen :
    ∃ t u, exec (.drw 0 1 1) (drawing boot 0xFF 63 0) = .next t ∧ exec (.drw 0 1 1) t = .next u ∧
      (t.reg 0).toNat % 64 = ((drawing boot 0xFF 63 0).reg 0).toNat % 64 ∧
      (t.reg 1).toNat % 32 = ((drawing boot 0xFF 63 0).reg 1).toNat % 32 ∧
      ∀ c r, fbGet (drawing boot 0xFF 63 0).fb c r = false :=
  ⟨_, _, rfl, rfl, by decide, by decide, boot_clear⟩

/-- Key 15 released with nothing lower released; and every observed key still held. -/
theorem witness_KeyServiceDeliversLowestReleasedKey :
    (waiting 0x8001).keyWaiting = true ∧
    ((waiting 0x8001).keysObserved.getLsbD (15 : Fin 16).val = true ∧
      (0x0001 : Keys).getLsbD (15 : Fin 16).val = false ∧
      ∀ j : Fin 16, j < 15 →
        ¬ ((waiting 0x8001).keysObserved.getLsbD j.val = true ∧ (0x0001 : Keys).getLsbD j.val = false)) ∧
    ∀ k : Fin 16, (waiting 0x8001).keysObserved.getLsbD k.val = true → (0xFFFF : Keys).getLsbD k.val = true := by
  decide

theorem witness_KeyServiceOfRunningMachineDoesNothing : boot.keyWaiting = false := by decide

theorem witness_KeyWaitNeedsPressThenRelease :
    (∃ t, exec (.ldKey 15) boot = .next t) ∧
    (0x8000 : Keys).getLsbD (15 : Fin 16).val = true ∧ (0 : Keys).getLsbD (15 : Fin 16).val = false :=
  ⟨⟨_, rfl⟩, by decide⟩

/-- `F30A` run enters the wait; a frame with no key held, key 2 having been observed, ends it. -/
theorem witness_OnlyKeyInstructionsChangeWaitState :
    (∃ t, Machine.step (placeInstr 0xF30A boot) = .next t ∧ (placeInstr 0xF30A boot).keyWaiting = false ∧
      t.keyWaiting = true) ∧
    ∃ t, Machine.step { waiting 4 with keyInputs := [0] } = .next t ∧ (waiting 4).keyWaiting = true ∧
      t.keyWaiting = false :=
  ⟨⟨_, rfl, by decide, by decide⟩, _, rfl, by decide, by decide⟩

theorem witness_StepsOfOneFrameAreFrame : boot.phase = .frameStart ∧ (waiting 4).phase = .frameStart := by decide

theorem witness_HaltBeforeDrawEndsLoop :
    let s := (placeInstr 0xD011 bootQ).setPhase (.running 1 9)
    let u := placeInstr 0xD011 bootQ
    (s.phase = .running 1 9 ∧ s.keyWaiting = false ∧ s.cfg.haltBeforeDraw = true ∧ fieldOp s.fetchWord = 0xD ∧
      (∃ t, Machine.step s = .next t) ∧ 1 ≤ 1) ∧
    (u.phase = .running 0 10 ∧ u.keyWaiting = false ∧ u.cfg.haltBeforeDraw = true ∧ fieldOp u.fetchWord = 0xD ∧
      (∃ t, Machine.step u = .next t) ∧ 0 < 10) :=
  ⟨⟨by decide, by decide, by decide, by decide, ⟨_, rfl⟩, by decide⟩,
    by decide, by decide, by decide, by decide, ⟨_, rfl⟩, by decide⟩

theorem witness_FrameRunsAtMostBudget :
    ∃ t, boot.phase = .frameStart ∧ RunsTo 1 boot t ∧ t.phase = .running 0 10 :=
  ⟨_, by decide, ⟨_, rfl, rfl⟩, by decide⟩

/-- The last byte that is loaded, of a program one byte too long; and the edges of the cleared region. -/
theorem witness_ResetLoadsProgram :
    3583 < (List.replicate 3585 (0xFF : Byte)).length ∧ 3583 < 3584 ∧ 80 ≤ 80 ∧ 0x1FF < 0x200 ∧
    0x200 + ([] : List Byte).length ≤ 0x200 := by
  rw [List.length_replicate]; decide

/-- The invariant at a frame's start and inside the loop, and the step from each. -/
theorem witness_EveryStepKeepsInvariant :
    (boot.Inv ∧ ∃ t, Machine.step boot = .next t) ∧ inLoop.Inv ∧ ∃ t, Machine.step inLoop = .next t :=
  ⟨⟨⟨by decide, by decide, by decide, trivial⟩, _, rfl⟩,
    ⟨by decide, by decide, by decide, by decide, by decide⟩, _, rfl⟩

end Sys2Proof.Tests
end

section
/-! PROOFS. The configuration is kept: by the fetch and by each operation of the frame protocol, so by every step and
every run (R4, R29). -/

namespace Sys2Proof.Machine

@[simp] theorem afterFetch_cfg (s : State) : s.afterFetch.cfg = s.cfg := by rw [afterFetch_only]

@[simp] theorem keyService_cfg (keys : Keys) (s : State) : (keyService keys s).cfg = s.cfg := by
  rw [keyService_only]

@[simp] theorem tick_cfg (s : State) : (tick s).cfg = s.cfg := by rw [tick_only]

@[simp] theorem beginFrame_cfg (s : State) : (beginFrame s).cfg = s.cfg := by
  unfold beginFrame
  split
  · simp
  · simp

@[simp] theorem exitLoop_cfg (s : State) : (exitLoop s).cfg = s.cfg := s.setPhase_cfg _

@[simp] theorem countInstr_cfg (ran left : Nat) (s : State) : (countInstr ran left s).cfg = s.cfg := s.setPhase_cfg _

@[simp] theorem endFrame_cfg (s : State) : (endFrame s).cfg = s.cfg := by simp [endFrame]

/-- No instruction changes the configuration (R29). -/
theorem exec_keeps_cfg {i : Instr} {s t : State} (h : exec i s = .next t) : t.cfg = s.cfg := by
  obtain ⟨-, hcfg, -⟩ := exec_keeps i s t h
  exact hcfg

/-- No operation of the frame protocol changes the configuration (R29). -/
theorem step_keeps_cfg {s t : State} (h : step s = .next t) : t.cfg = s.cfg := by
  obtain ⟨-, hs⟩ | ⟨-, hs⟩ | ⟨ran, left, -, -, hs⟩ | ⟨ran, left, -, -, -, hs⟩ := step_cases s
  case inr.inr.inr => -- an instruction runs, from the state after its fetch
    calc t.cfg = (countInstr ran left s).afterFetch.cfg := exec_keeps_cfg (hs.symm.trans h)
      _ = s.cfg := by simp
  all_goals
    cases next_inj (hs.symm.trans h)
    simp

/-- Settles O13: having the configuration of `s` is kept by every step, so by every run. -/
theorem configurationNeverChanges : Obligations.ConfigurationNeverChanges := by
  intro s t k hr
  exact runsTo_keeps (fun u => u.cfg = s.cfg) (fun _ _ hu h => (step_keeps_cfg h).trans hu) hr rfl

end Sys2Proof.Machine
end

section
/-! PROOFS. Which instruction writes which piece of state (R10, R34): one lemma says what an instruction can change at
all; a lemma for each piece follows from it. -/

namespace Sys2Proof.Machine

open Sys2Proof.Claims

/-- `s` with each piece of state that the instruction `i` may write taken from `t`. -/
def writtenBy (i : Instr) (s t : State) : State :=
  { s with
    v := if (destination i).isSome || writesFlag s.cfg i then t.v else s.v
    pc := if writesPc i then t.pc else s.pc
    i := if writesI s.cfg i then t.i else s.i
    dt := match i with | .setDt _ => t.dt | _ => s.dt
    st := match i with | .setSt _ => t.st | _ => s.st
    stack := match i with | .call _ => t.stack | _ => s.stack
    sp := match i with | .call _ | .ret => t.sp | _ => s.sp
    mem := match i with | .bcd _ | .dump _ => t.mem | _ => s.mem
    fb := match i with | .cls | .drw _ _ _ => t.fb | _ => s.fb
    keyWaiting := match i with | .ldKey _ => t.keyWaiting | _ => s.keyWaiting
    keyTarget := match i with | .ldKey _ => t.keyTarget | _ => s.keyTarget
    keysObserved := match i with | .ldKey _ => t.keysObserved | _ => s.keysObserved
    diags := if mayRecord i then t.diags else s.diags
    drawInputs := match i with | .rnd _ _ => t.drawInputs | _ => s.drawInputs
    drawNo := match i with | .rnd _ _ => t.drawNo | _ => s.drawNo }

theorem skipIf_onlyPc (c : Bool) (s : State) : skipIf c s = { s with pc := (skipIf c s).pc } := by
  cases c <;> rfl

@[simp] theorem dumpRegs_cfg (rs : List RegIdx) (s : State) : (dumpRegs rs s).cfg = s.cfg := by rw [dumpRegs_only]

@[simp] theorem dumpRegs_i (rs : List RegIdx) (s : State) : (dumpRegs rs s).i = s.i := by rw [dumpRegs_only]

@[simp] theorem loadRegs_cfg (rs : List RegIdx) (s : State) : (loadRegs rs s).cfg = s.cfg := by rw [loadRegs_only]

@[simp] theorem loadRegs_i (rs : List RegIdx) (s : State) : (loadRegs rs s).i = s.i := by rw [loadRegs_only]

/-- The advance that ends `Fx55` and `Fx65` writes `I` only under `memory_increments_i` (R124, R125). -/
theorem advanceI_i_eq_ite {s u : State} (x : RegIdx) (hc : u.cfg = s.cfg) (hi : u.i = s.i) :
    (if s.cfg.memoryIncrementsI then (advanceI x u).i else s.i) = (advanceI x u).i := by
  unfold advanceI
  rw [hc]
  split
  · rfl
  · exact hi.symm

/-- What an instruction can do: it changes no piece of state but those it may write. -/
theorem exec_writes {i : Instr} {s t : State} (h : exec i s = .next t) : t = writtenBy i s t := by
  cases i <;> cases h
  case drw x y n =>
    obtain ⟨t, ht, e⟩ := execDrw_only x y n s
    cases ht
    exact e
  case ret => exact popJump_only s
  case call => exact pushJump_only _ s
  case seImm | sneImm | seReg | sneReg | skp | sknp => exact skipIf_onlyPc _ s
  case orReg | andReg | xorReg => exact logic_only _ _ s
  case shrReg x y => exact shiftRight_only x y s
  case shlReg x y => exact shiftLeft_only x y s
  case bcd => exact memWriteList_only _ _ s
  case dump x =>
    obtain ⟨t, ht, e⟩ := execDump_only x s
    cases ht
    rw [← advanceI_i_eq_ite x (dumpRegs_cfg _ s) (dumpRegs_i _ s)] at e
    exact e
  case load x =>
    obtain ⟨t, ht, e⟩ := execLoad_only x s
    cases ht
    rw [← advanceI_i_eq_ite x (loadRegs_cfg _ s) (loadRegs_i _ s)] at e
    exact e
  all_goals rfl

section pieces

variable {i : Instr} {s t : State} (h : exec i s = .next t)
include h

theorem exec_keeps_v (hd : destination i = none) (hf : writesFlag s.cfg i = false) : t.v = s.v := by
  have e := congrArg State.v (exec_writes h)
  simpa [writtenBy, hd, hf] using e

theorem exec_keeps_pc (hi : writesPc i = false) : t.pc = s.pc := by
  have e := congrArg State.pc (exec_writes h)
  simpa [writtenBy, hi] using e

theorem exec_keeps_i (hi : writesI s.cfg i = false) : t.i = s.i := by
  have e := congrArg State.i (exec_writes h)
  simpa [writtenBy, hi] using e

theorem exec_keeps_diags (hi : mayRecord i = false) : t.diags = s.diags := by
  have e := congrArg State.diags (exec_writes h)
  simpa [writtenBy, hi] using e

theorem exec_keeps_dt (hi : ∀ x, i ≠ .setDt x) : t.dt = s.dt := by
  have e := congrArg State.dt (exec_writes h)
  cases i
  case setDt x => exact absurd rfl (hi x)
  all_goals exact e

theorem exec_keeps_st (hi : ∀ x, i ≠ .setSt x) : t.st = s.st := by
  have e := congrArg State.st (exec_writes h)
  cases i
  case setSt x => exact absurd rfl (hi x)
  all_goals exact e

theorem exec_keeps_stack (hi : ∀ nnn, i ≠ .call nnn) : t.stack = s.stack := by
  have e := congrArg State.stack (exec_writes h)
  cases i
  case call nnn => exact absurd rfl (hi nnn)
  all_goals exact e

theorem exec_keeps_sp (hc : ∀ nnn, i ≠ .call nnn) (hr : i ≠ .ret) : t.sp = s.sp := by
  have e := congrArg State.sp (exec_writes h)
  cases i
  case call nnn => exact absurd rfl (hc nnn)
  case ret => exact absurd rfl hr
  all_goals exact e

theorem exec_keeps_mem (hi : ∀ x, i ≠ .bcd x ∧ i ≠ .dump x) : t.mem = s.mem := by
  have e := congrArg State.mem (exec_writes h)
  cases i
  case bcd x => exact absurd rfl (hi x).left
  case dump x => exact absurd rfl (hi x).right
  all_goals exact e

theorem exec_keeps_fb (hc : i ≠ .cls) (hd : ∀ x y n, i ≠ .drw x y n) : t.fb = s.fb := by
  have e := congrArg State.fb (exec_writes h)
  cases i
  case cls => exact absurd rfl hc
  case drw x y n => exact absurd rfl (hd x y n)
  all_goals exact e

theorem exec_keeps_keyWait (hi : ∀ x, i ≠ .ldKey x) :
    t.keyWaiting = s.keyWaiting ∧ t.keyTarget = s.keyTarget ∧ t.keysObserved = s.keysObserved := by
  have hw := congrArg State.keyWaiting (exec_writes h)
  have ht := congrArg State.keyTarget (exec_writes h)
  have ho := congrArg State.keysObserved (exec_writes h)
  cases i
  case ldKey x => exact absurd rfl (hi x)
  all_goals exact ⟨hw, ht, ho⟩

theorem exec_keeps_draws (hi : ∀ x kk, i ≠ .rnd x kk) : t.drawInputs = s.drawInputs ∧ t.drawNo = s.drawNo := by
  have hd := congrArg State.drawInputs (exec_writes h)
  have hn := congrArg State.drawNo (exec_writes h)
  cases i
  case rnd x kk => exact absurd rfl (hi x kk)
  all_goals exact ⟨hd, hn⟩

/-- An instruction that stores nothing leaves every byte (R22, R41). -/
theorem exec_keeps_peek (hi : ∀ x, i ≠ .bcd x ∧ i ≠ .dump x) (a : Nat) : t.peek a = s.peek a := by
  simp [State.peek, exec_keeps_mem h hi, exec_keeps_cfg h]

end pieces

/-- Settles O14: each clause is what `exec_writes` leaves of one piece of state. -/
theorem eachPieceOfStateHasItsWriters : Obligations.EachPieceOfStateHasItsWriters := by
  intro i s t h
  exact ⟨exec_keeps_v h, exec_keeps_pc h, exec_keeps_i h, exec_keeps_dt h, exec_keeps_st h,
    fun hc => ⟨exec_keeps_stack h hc, exec_keeps_sp h hc⟩, exec_keeps_peek h, exec_keeps_fb h, exec_keeps_keyWait h,
    exec_keeps_diags h, exec_keeps_draws h, exec_keeps i s t h⟩

end Sys2Proof.Machine
end

section
/-! PROOFS. VF changes only by a flag writer or as the destination (R12, R34). -/

namespace Sys2Proof.Machine

open Sys2Proof.Claims

/-- A write to another register leaves VF (R12). -/
theorem reg15_setReg_of_ne {x : RegIdx} (hx : x ≠ 15) (b : Byte) (s : State) : (s.setReg x b).reg 15 = s.reg 15 := by
  rw [State.reg_setReg, if_neg hx.symm]

/-- A logic operation on another register leaves VF when the toggle is off (R93 to R95). -/
theorem reg15_logic_of_ne {x : RegIdx} (hx : x ≠ 15) (b : Byte) (s : State) (ht : s.cfg.vfResetOnLogic = false) :
    (logicVF (s.setReg x b)).reg 15 = s.reg 15 := by
  rw [logicVF_reg, if_neg (by simp [ht]), reg15_setReg_of_ne hx]

/-- `Fx65` with `x` below 15 does not reach VF (R125). -/
theorem reg15_load_of_ne {x : RegIdx} (hx : x ≠ 15) (s : State) :
    (advanceI x (loadRegs (regsUpTo x) s)).reg 15 = s.reg 15 := by
  have hmem : (15 : RegIdx) ∉ regsUpTo x := by
    rw [regsUpTo_mem]
    exact fun hle => hx (le_antisymm (Fin.le_last x) hle)
  rw [advanceI_only]
  exact (loadRegs_reg _ s 15).trans (if_neg hmem)

/-- A destination other than VF leaves VF, unless the instruction writes a flag. -/
theorem exec_reg15_of_destination {i : Instr} {s t : State} {x : RegIdx} (h : exec i s = .next t)
    (hf : writesFlag s.cfg i = false) (hd : destination i = some x) (hx : x ≠ 15) : t.reg 15 = s.reg 15 := by
  cases i
  case orReg | andReg | xorReg => cases hd; cases h; exact reg15_logic_of_ne hx _ s hf
  case load => cases hd; cases h; exact reg15_load_of_ne hx s
  case rnd => cases hd; cases h; exact reg15_setReg_of_ne hx _ s.takeDraw
  case ldImm | addImm | ldReg | ldDt => cases hd; cases h; exact reg15_setReg_of_ne hx _ s
  case addReg | subReg | subnReg | shrReg | shlReg => cases hf
  all_goals cases hd

/-- Settles O15: without a destination the whole register file is kept; a destination is one register other than VF,
or the registers `0..x` with `x` below 15. -/
theorem onlyFlagWritersChangeVF : Obligations.OnlyFlagWritersChangeVF := by
  intro i s t h hf hd
  cases hdest : destination i with
  | none => exact congrArg (·[15]) (exec_keeps_v h hdest hf)
  | some x => exact exec_reg15_of_destination h hf hdest fun e => hd (e ▸ hdest)

end Sys2Proof.Machine
end

section
/-! PROOFS. What a program cannot read does not influence what it can (R30, R33): each operation, then each
instruction, gives the same visible state when it starts from the visible state alone. -/

namespace Sys2Proof.Machine

open Sys2Proof.Claims

section visible

variable (s : State)

@[simp] theorem hideUnreadable_cfg : (hideUnreadable s).cfg = s.cfg := rfl
@[simp] theorem hideUnreadable_fb : (hideUnreadable s).fb = s.fb := rfl
@[simp] theorem hideUnreadable_peek (a : Nat) : (hideUnreadable s).peek a = s.peek a := rfl
@[simp] theorem hideUnreadable_dataAddr (k : Nat) : (hideUnreadable s).dataAddr k = s.dataAddr k := rfl

@[simp] theorem hideUnreadable_setFb (f : Framebuffer) :
    hideUnreadable (s.setFb f) = (hideUnreadable s).setFb f := rfl

@[simp] theorem hideUnreadable_setReg (r : RegIdx) (b : Byte) :
    hideUnreadable (s.setReg r b) = (hideUnreadable s).setReg r b := rfl

@[simp] theorem hideUnreadable_idem : hideUnreadable (hideUnreadable s) = hideUnreadable s := rfl

/-- A read leaves the visible state alone: the log is unreadable (R30). -/
@[simp] theorem hideUnreadable_noteRead (a : Nat) : hideUnreadable (s.noteRead a) = hideUnreadable s := by
  rw [noteRead_only]; rfl

@[simp] theorem noteRead_fb (a : Nat) : (s.noteRead a).fb = s.fb := by rw [noteRead_only]

end visible

/-- What the operation leaves visible depends on the visible state only. -/
def ReadsVisible (op : State → State) : Prop := ∀ s, hideUnreadable (op (hideUnreadable s)) = hideUnreadable (op s)

/-- Two operations in a row read only the visible state if each does. -/
theorem ReadsVisible.comp {f g : State → State} (hg : ReadsVisible g) (hf : ReadsVisible f) :
    ReadsVisible (fun s => g (f s)) := by
  intro s
  calc hideUnreadable (g (f (hideUnreadable s)))
      = hideUnreadable (g (hideUnreadable (f (hideUnreadable s)))) := (hg _).symm
    _ = hideUnreadable (g (hideUnreadable (f s))) := by rw [hf]
    _ = hideUnreadable (g (f s)) := hg _

/-! ### The shared operations -/

theorem skipIf_readsVisible (c : Bool) : ReadsVisible (skipIf c) := by
  intro s
  cases c
  · rfl
  · rfl

theorem pushJump_readsVisible (target : Word) : ReadsVisible (pushJump target) := by
  intro s
  by_cases h : s.sp = 15
  · rw [pushJump_ignored _ s h, pushJump_ignored _ (hideUnreadable s) h]; rfl
  · rw [pushJump_accepted _ s h, pushJump_accepted _ (hideUnreadable s) h]; rfl

theorem popJump_readsVisible : ReadsVisible popJump := by
  intro s
  by_cases h : s.sp = 0
  · rw [popJump_ignored s h, popJump_ignored (hideUnreadable s) h]; rfl
  · rw [popJump_accepted s h, popJump_accepted (hideUnreadable s) h]; rfl

theorem setReg_readsVisible (x : RegIdx) (b : Byte) : ReadsVisible (fun s => s.setReg x b) := fun _ => rfl

/-- A line that runs under a toggle: the configuration is visible. -/
theorem ReadsVisible.toggle (c : Config → Bool) {op : State → State} (ho : ReadsVisible op) :
    ReadsVisible (fun s => if c s.cfg then op s else s) := by
  intro s
  cases hc : c s.cfg
  · simp [hc]
  · simpa [hc] using ho s

theorem logicVF_readsVisible : ReadsVisible logicVF :=
  .toggle Config.vfResetOnLogic (op := fun s => s.setVF 0) fun _ => rfl

theorem shiftSource_readsVisible (x y : RegIdx) : ReadsVisible (shiftSource x y) :=
  .toggle Config.shiftUsesVy (op := fun s => s.setReg x (s.reg y)) fun _ => rfl

theorem advanceI_readsVisible (x : RegIdx) : ReadsVisible (advanceI x) :=
  .toggle Config.memoryIncrementsI (op := fun s => s.setI (mask12 (s.i.toNat + x.val + 1))) fun _ => rfl

theorem shiftRightStep_readsVisible (x : RegIdx) : ReadsVisible (shiftRightStep x) := fun _ => rfl

theorem shiftLeftStep_readsVisible (x : RegIdx) : ReadsVisible (shiftLeftStep x) := fun _ => rfl

theorem memWrite_readsVisible (a : Nat) (b : Byte) : ReadsVisible (memWrite a b) := by
  intro s
  unfold memWrite
  split
  · rfl
  · rfl

/-! ### The loops -/

theorem memWriteList_readsVisible (a : Nat) (bs : List Byte) : ReadsVisible (memWriteList a bs) := by
  induction bs generalizing a with
  | nil => exact fun _ => rfl
  | cons b bs ih => exact (ih (a + 1)).comp (memWrite_readsVisible a b)

theorem dumpRegs_readsVisible (rs : List RegIdx) : ReadsVisible (dumpRegs rs) := by
  induction rs with
  | nil => exact fun _ => rfl
  | cons r rs ih => exact ih.comp fun s => memWrite_readsVisible (s.dataAddr r.val) (s.reg r) s

theorem loadReg_readsVisible (r : RegIdx) :
    ReadsVisible (fun s => (s.noteRead (s.dataAddr r.val)).setReg r (s.peek (s.dataAddr r.val))) := by
  intro s
  simp

theorem loadRegs_readsVisible (rs : List RegIdx) : ReadsVisible (loadRegs rs) := by
  induction rs with
  | nil => exact fun _ => rfl
  | cons r rs ih => exact ih.comp (loadReg_readsVisible r)

/-- The result of the row loop with the unreadable state hidden: the collision is visible, it goes to VF (R132). -/
def hideFirst (p : State × Bool) : State × Bool := (hideUnreadable p.1, p.2)

/-- Two row loops that go on from the same visible state and collision end in the same ones. -/
theorem drawRows_hide (x0 y0 : Nat) (rows : List Nat) (s : State) (hit : Bool) :
    hideFirst (drawRows x0 y0 rows (hideUnreadable s) hit) = hideFirst (drawRows x0 y0 rows s hit) := by
  induction rows generalizing s hit with
  | nil => rfl
  | cons row rows ih =>
    unfold drawRows
    by_cases h : y0 + row < 32
    · simp only [h, dif_pos, memRead, hideUnreadable_dataAddr, hideUnreadable_peek, hideUnreadable_cfg, noteRead_fb,
        hideUnreadable_fb]
      rw [← ih ((hideUnreadable s).noteRead _ |>.setFb _), ← ih (s.noteRead _ |>.setFb _)]
      simp only [hideUnreadable_setFb, hideUnreadable_noteRead, hideUnreadable_idem]
    · by_cases hc : s.cfg.clipSprites = true
      · simp only [h, dif_neg, not_false_iff, hideUnreadable_cfg, hc, if_true]; rfl
      · simp only [h, dif_neg, not_false_iff, hideUnreadable_cfg, hc]; exact ih s hit

/-! ### The instructions -/

/-- The end of `Dxyn`: VF is the collision (R131). -/
theorem execDrw_readsVisible (x0 y0 : Nat) (rows : List Nat) :
    ReadsVisible fun s => (drawRows x0 y0 rows s false).1.setVF (flagByte (drawRows x0 y0 rows s false).2) := by
  intro s
  exact congrArg (fun p : State × Bool => p.1.setVF (flagByte p.2)) (drawRows_hide x0 y0 rows s false)

/-- Started from the visible state alone, every instruction gives the same visible state. -/
theorem exec_hideUnreadable {i : Instr} {s t : State} (h : exec i s = .next t) :
    ∃ u, exec i (hideUnreadable s) = .next u ∧ hideUnreadable u = hideUnreadable t := by
  cases i <;> cases h
  case ret => exact ⟨_, rfl, popJump_readsVisible s⟩
  case call => exact ⟨_, rfl, pushJump_readsVisible _ s⟩
  case seImm | sneImm | seReg | sneReg | skp | sknp => exact ⟨_, rfl, skipIf_readsVisible _ s⟩
  case orReg | andReg | xorReg =>
    exact ⟨_, rfl, logicVF_readsVisible.comp (setReg_readsVisible _ _) s⟩
  case shrReg x y => exact ⟨_, rfl, (shiftRightStep_readsVisible x).comp (shiftSource_readsVisible x y) s⟩
  case shlReg x y => exact ⟨_, rfl, (shiftLeftStep_readsVisible x).comp (shiftSource_readsVisible x y) s⟩
  case drw => exact ⟨_, rfl, execDrw_readsVisible _ _ _ s⟩
  case bcd => exact ⟨_, rfl, memWriteList_readsVisible _ _ s⟩
  case dump x => exact ⟨_, rfl, (advanceI_readsVisible x).comp (dumpRegs_readsVisible _) s⟩
  case load x => exact ⟨_, rfl, (advanceI_readsVisible x).comp (loadRegs_readsVisible _) s⟩
  all_goals exact ⟨_, rfl, rfl⟩

/-- Settles O16: both results are, in what is visible, the one that the common visible state gives. -/
theorem unreadableStateDoesNotLeak : Obligations.UnreadableStateDoesNotLeak := by
  intro i s s' t t' hs h h'
  obtain ⟨u, hu, hut⟩ := exec_hideUnreadable h
  obtain ⟨u', hu', hut'⟩ := exec_hideUnreadable h'
  have huu : u = u' := next_inj (hu.symm.trans (hs ▸ hu'))
  rw [← hut, huu, hut']

end Sys2Proof.Machine
end

section
/-! PROOFS. The canonical form of memory is determined by its reads, and the state after reset (R22, R32). -/

namespace Sys2Proof.Machine

/-- Reading the address of an entry of a rising list gives the entry's byte. -/
theorem Memory.read_of_mem (font : Font) {m : Memory} (hm : m.Pairwise (fun p q => p.1 < q.1)) {c : Host.Cell}
    (hc : c ∈ m) : Memory.read font m c.1 = c.2 := by
  induction m with
  | nil => cases hc
  | cons p rest ih =>
    obtain ⟨hlt, hrest⟩ := List.pairwise_cons.1 hm
    rcases List.mem_cons.1 hc with rfl | hc
    · simp [Memory.read]
    · simp [Memory.read, (hlt c hc).ne, ih hrest hc]

/-- The entries of a list in the canonical form are the reads that differ from what an unlisted address reads as. -/
theorem Memory.mem_iff_of_wf {font : Font} {m : Memory} (hm : Memory.wf font m) (c : Host.Cell) :
    c ∈ m ↔ Memory.read font m c.1 = c.2 ∧ c.2 ≠ Memory.unlisted font c.1 := by
  obtain ⟨hsort, hcells⟩ := hm
  constructor
  · intro hc
    exact ⟨Memory.read_of_mem font hsort hc, (hcells c hc).2⟩
  · rintro ⟨hread, hne⟩
    by_contra hc
    have hnone : ∀ d ∈ m, d.1 ≠ c.1 := by
      intro d hd e
      have hbyte : d.2 = c.2 := (Memory.read_of_mem font hsort hd).symm.trans (e ▸ hread)
      exact hc (Prod.ext e hbyte ▸ hd)
    exact hne (hread.symm.trans (Memory.read_of_not_mem font m c.1 hnone))

/-- Settles O35: the two lists have the same entries, and both rise. -/
theorem equalReadsMeanEqualMemories : Obligations.EqualReadsMeanEqualMemories := by
  intro font m n hm hn hread
  have hmem : ∀ c, c ∈ m ↔ c ∈ n := by
    intro c
    rw [Memory.mem_iff_of_wf hm, Memory.mem_iff_of_wf hn, hread]
  have hasymm : Std.Antisymm (fun p q : Host.Cell => p.1 < q.1) := ⟨fun _ _ h h' => absurd h' h.asymm⟩
  have hirrefl : Std.Irrefl (fun p q : Host.Cell => p.1 < q.1) := ⟨fun p => lt_irrefl p.1⟩
  exact hm.1.eq_of_mem_iff hn.1 hmem

/-- After reset memory lists nothing: a byte reads as the font below 80 and as 0 elsewhere (R32). -/
theorem reset_peek (a : Nat) :
    State.reset.peek a = if a < memSize then Memory.unlisted State.reset.cfg.font a else 0 := rfl

theorem reset_peek_font (a : Fin 80) : State.reset.peek a.val = State.reset.cfg.font[a.val] := by
  have ha : a.val < memSize := a.isLt.trans (by decide)
  rw [reset_peek, if_pos ha]
  exact dif_pos a.isLt

theorem reset_peek_zero {a : Nat} (ha : 80 ≤ a) : State.reset.peek a = 0 := by
  have hf : ¬ a < fontSize := ha.not_gt
  rw [reset_peek, Memory.unlisted, dif_neg hf, ite_self]

/-- Settles O55: reset writes these values, and lists no byte of memory. -/
theorem resetLeavesTableOfR32 : Obligations.ResetLeavesTableOfR32 := by
  have hreg : ∀ r, State.reset.reg r = 0 := fun r => Vector.getElem_replicate r.isLt
  have hslot : ∀ k : Fin 16, State.reset.stack[k.val] = 0 := fun k => Vector.getElem_replicate k.isLt
  exact ⟨hreg, rfl, rfl, rfl, rfl, rfl, hslot, reset_peek_font, fun _ => reset_peek_zero, rfl, rfl,
    fun _ => BitVec.getLsbD_zero, fbGet_fbClear, rfl⟩

/-- Settles O57: an empty list is canonical, and every register and slot is 0. -/
theorem resetMeetsInvariant : Obligations.ResetMeetsInvariant :=
  ⟨reset_memory_wf _, by decide, by simp [State.reset], trivial⟩

end Sys2Proof.Machine
end

section
/-! PROOFS. Every step keeps the invariant (R17, R21, R22, R170). -/

namespace Sys2Proof.Machine

open Sys2Proof.Claims

/-! ### What an instruction does to the pieces that the invariant speaks of -/

/-- Every instruction keeps the canonical form of memory: only `Fx33` and `Fx55` store, by bounds-checked writes. -/
theorem exec_keeps_memWf {i : Instr} {s t : State} (h : exec i s = .next t) (hm : Memory.wf s.cfg.font s.mem) :
    Memory.wf t.cfg.font t.mem := by
  cases i
  case bcd x => cases h; exact memWriteList_wf _ _ s hm
  case dump x => cases h; rw [advanceI_only]; exact dumpRegs_wf _ s hm
  all_goals
    rw [exec_keeps_cfg h, exec_keeps_mem h (fun _ => ⟨nofun, nofun⟩)]
    exact hm

/-- The advance of `I` keeps it below 4096 (R17). -/
theorem advanceI_iBound (x : RegIdx) {s : State} (hi : s.i.toNat < 4096) : (advanceI x s).i.toNat < 4096 := by
  rw [advanceI_i]
  split
  · exact Nat.mod_lt _ (by decide)
  · exact hi

/-- Every instruction keeps `I` below 4096: each of its writers narrows to 12 bits (R17). -/
theorem exec_keeps_iBound {i : Instr} {s t : State} (h : exec i s = .next t) (hi : s.i.toNat < 4096) :
    t.i.toNat < 4096 := by
  cases i
  case ldI nnn =>
    cases h
    simp [zext16]; omega
  case addI x =>
    cases h
    exact (mask12_toNat _).trans_lt (Nat.mod_lt _ (by decide))
  case ldGlyph x =>
    cases h
    have hlt := (lowNibble (s.reg x)).isLt
    rw [State.setI_i, BitVec.toNat_ofNat]
    exact (Nat.mod_le _ _).trans_lt (by omega)
  case dump x | load x => cases h; exact advanceI_iBound x (by simpa using hi)
  all_goals
    rw [exec_keeps_i h rfl]
    exact hi

/-- Every instruction leaves slot 15 of the stack: a call at depth 15 pushes nothing (R21, R83). -/
theorem exec_keeps_topSlot {i : Instr} {s t : State} (h : exec i s = .next t) : t.stack[15] = s.stack[15] := by
  cases i
  case call nnn =>
    cases h
    by_cases hsp : s.sp = 15
    · rw [pushJump_ignored _ s hsp]; rfl
    · have hne : s.sp.val ≠ 15 := fun e => hsp (Fin.ext e)
      rw [pushJump_accepted _ s hsp]
      exact Vector.getElem_set_ne s.sp.isLt (by decide) hne
  all_goals exact congrArg (·[15]) (exec_keeps_stack h nofun)

/-! ### The operations of the frame protocol -/

/-- The pieces that the invariant speaks of, the place in the frame aside, are the same in both states. -/
def SameStore (s t : State) : Prop := t.cfg = s.cfg ∧ t.mem = s.mem ∧ t.i = s.i ∧ t.stack = s.stack

theorem State.Inv.of_sameStore {s t : State} (hs : s.Inv) (h : SameStore s t) (hp : t.phaseOk) : t.Inv := by
  obtain ⟨hcfg, hmem, hi, hstack⟩ := h
  exact ⟨by rw [hcfg, hmem]; exact hs.memWf, hi ▸ hs.iBound, hstack ▸ hs.topSlot, hp⟩

theorem beginFrame_sameStore (s : State) : SameStore s (beginFrame s) := by
  unfold beginFrame
  split
  · rw [keyService_only]; exact ⟨rfl, rfl, rfl, rfl⟩
  · exact ⟨rfl, rfl, rfl, rfl⟩

theorem endFrame_sameStore (s : State) : SameStore s (endFrame s) := ⟨rfl, rfl, rfl, rfl⟩

theorem exitLoop_sameStore (s : State) : SameStore s (exitLoop s) := ⟨rfl, rfl, rfl, rfl⟩

theorem fetch_sameStore (ran left : Nat) (s : State) : SameStore s (countInstr ran left s).afterFetch := by
  rw [afterFetch_only]; exact ⟨rfl, rfl, rfl, rfl⟩

theorem State.phaseOk_running {s : State} {ran left : Nat} (hp : s.phase = .running ran left) :
    s.phaseOk ↔ ran + left = s.cfg.instructionsPerFrame ∧ (s.keyWaiting = true → 0 < ran) := by
  simp [State.phaseOk, hp]

/-- A frame begins with the key service, or in the loop with the whole budget and the machine Running (R170). -/
theorem beginFrame_phaseOk (s : State) : (beginFrame s).phaseOk := by
  unfold beginFrame
  split
  · trivial
  · next hk => exact (State.phaseOk_running rfl).2 ⟨Nat.zero_add _, fun hw => absurd hw hk⟩

/-- A loop that goes on has budget left (R170). -/
theorem loopEnds_eq_false_left {ran left : Nat} {s : State} (h : loopEnds ran left s = false) : 0 < left := by
  cases left with
  | zero => cases h
  | succ n => exact Nat.succ_pos n

theorem fetch_phase (ran left : Nat) (s : State) :
    (countInstr ran left s).afterFetch.phase = .running (ran + 1) (left - 1) := by
  rw [afterFetch_only]; rfl

/-- Counting an instruction takes one from the budget left, and the fetch changes nothing that the invariant speaks
of. -/
theorem fetch_keeps_inv {s : State} {ran left : Nat} (hs : s.Inv) (hp : s.phase = .running ran left)
    (hleft : 0 < left) : (countInstr ran left s).afterFetch.Inv := by
  obtain ⟨hbudget, -⟩ := (State.phaseOk_running hp).1 hs.phaseOk
  have hcounted : ran + 1 + (left - 1) = s.cfg.instructionsPerFrame := by omega
  refine hs.of_sameStore (fetch_sameStore ran left s) ((State.phaseOk_running (fetch_phase ran left s)).2 ⟨?_, ?_⟩)
  · rw [afterFetch_cfg, countInstr_cfg, hcounted]
  · exact fun _ => Nat.succ_pos ran

/-- An instruction counted in the frame keeps the invariant. -/
theorem exec_keeps_inv {i : Instr} {s t : State} {ran left : Nat} (h : exec i s = .next t) (hs : s.Inv)
    (hp : s.phase = .running (ran + 1) left) : t.Inv := by
  obtain ⟨hbudget, -⟩ := (State.phaseOk_running hp).1 hs.phaseOk
  obtain ⟨-, hcfg, -, hphase, -⟩ := exec_keeps i s t h
  refine ⟨exec_keeps_memWf h hs.memWf, exec_keeps_iBound h hs.iBound, (exec_keeps_topSlot h).trans hs.topSlot, ?_⟩
  exact (State.phaseOk_running (hphase.trans hp)).2 ⟨hcfg ▸ hbudget, fun _ => Nat.succ_pos ran⟩

/-- Settles O58, by the four operations of the frame protocol. -/
theorem everyStepKeepsInvariant : Obligations.EveryStepKeepsInvariant := by
  intro s t hs h
  obtain ⟨-, hstep⟩ | ⟨-, hstep⟩ | ⟨ran, left, -, -, hstep⟩ | ⟨ran, left, hphase, hloop, -, hstep⟩ := step_cases s
  · cases next_inj (hstep.symm.trans h)
    exact hs.of_sameStore (beginFrame_sameStore s) (beginFrame_phaseOk s)
  · cases next_inj (hstep.symm.trans h)
    exact hs.of_sameStore (endFrame_sameStore s) trivial
  · cases next_inj (hstep.symm.trans h)
    exact hs.of_sameStore (exitLoop_sameStore s) trivial
  · -- an instruction runs, counted and fetched
    have hfetched := fetch_keeps_inv hs hphase (loopEnds_eq_false_left hloop)
    exact exec_keeps_inv (hstep.symm.trans h) hfetched (fetch_phase ran left s)

end Sys2Proof.Machine
end

section
/-! PROOFS. Bytes stored and fetched: the bounds check, and what the next fetch sees of a store (R42 to R44, R54). -/

namespace Sys2Proof.Machine

open Sys2Proof.Claims

/-! ### The bounds check -/

theorem memWrite_dropped {a : Nat} (ha : 4096 ≤ a) (b : Byte) (s : State) : memWrite a b s = s.addDiag .memWriteOor :=
  if_neg ha.not_gt

/-- A read in range is of the stored byte and changes nothing (R42). -/
theorem memRead_inRange {a : Nat} (ha : a < 4096) (s : State) : memRead a s = (s.peek a, s) :=
  congrArg (Prod.mk _) (if_pos ha)

/-- A read out of range gives 0 and records it (R42). -/
theorem memRead_outOfRange {a : Nat} (ha : 4096 ≤ a) (s : State) : memRead a s = (0, s.addDiag .memReadOor) :=
  congrArg₂ Prod.mk (if_neg ha.not_gt) (if_neg ha.not_gt)

/-- Settles O34, by the read-after-write rule of memory and the two sides of the bounds check. -/
theorem boundsCheckedMemory : Obligations.BoundsCheckedMemory := by
  intro s a b hm
  refine ⟨fun ha => ⟨?_, ?_, memWrite_wf a b s hm, memRead_inRange ha s⟩, fun c hc => ?_, memWrite_only a b s,
    fun ha => ⟨memWrite_dropped ha b s, memRead_outOfRange ha s⟩⟩
  · rw [memRead_inRange ha, peek_memWrite a a b s hm, if_pos ⟨rfl, ha⟩]
  · exact (memWrite_diags a b s).trans (if_pos ha)
  · rw [peek_memWrite a c b s hm, if_neg fun h => hc h.1.symm]

/-! ### The two bytes of a fetch -/

/-- The high byte of the fetched word is the one at `pc` (R44). -/
theorem fetchedHigh_eq_peek (s : State) : fetchedHigh s = s.peek s.pc.toNat := by
  apply BitVec.eq_of_toNat_eq
  rw [fetchedHigh, State.fetchWord, toNat_field, toNat_append']
  omega

/-- The low byte of the fetched word is the one at `pc + 1` (R44). -/
theorem fetchedLow_eq_peek (s : State) : fetchedLow s = s.peek (s.pc.toNat + 1) := by
  apply BitVec.eq_of_toNat_eq
  rw [fetchedLow, State.fetchWord, toNat_field, toNat_append']
  omega

/-! ### A byte after a store -/

/-- A byte in range after `Fx55`: the register stored over it, or else the byte before (R124). -/
theorem dump_byte {x : RegIdx} {s t : State} (hm : Memory.wf s.cfg.font s.mem) (h : exec (.dump x) s = .next t)
    {a : Nat} (ha : a < 4096) :
    (∀ r : RegIdx, r ≤ x → s.dataAddr r.val = a → t.peek a = s.reg r) ∧
    ((∀ r : RegIdx, r ≤ x → s.dataAddr r.val ≠ a) → t.peek a = s.peek a) := by
  cases h
  obtain ⟨hstored, hkept⟩ := dumpRegs_peek (regsUpTo x) s hm (regsUpTo_nodup x)
  rw [advanceI_only]
  constructor
  · rintro r hr rfl
    exact hstored r ((regsUpTo_mem x r).2 hr) ha
  · intro hne
    exact hkept a fun r hr => (hne r ((regsUpTo_mem x r).1 hr)).symm

theorem bcdDigits_toNat (v : Byte) {k : Nat} (hk : k < 3) :
    ((bcdDigits v).getD k 0).toNat = v.toNat / 10 ^ (2 - k) % 10 := by
  have hv := v.isLt
  interval_cases k <;> simp [bcdDigits] <;> omega

/-- A byte in range after `Fx33`: the decimal digit stored over it, or else the byte before (R123). -/
theorem bcd_byte {x : RegIdx} {s t : State} (hm : Memory.wf s.cfg.font s.mem) (h : exec (.bcd x) s = .next t)
    {a : Nat} (ha : a < 4096) :
    (∀ k < 3, s.dataAddr k = a → (t.peek a).toNat = (s.reg x).toNat / 10 ^ (2 - k) % 10) ∧
    ((∀ k < 3, s.dataAddr k ≠ a) → t.peek a = s.peek a) := by
  cases h
  rw [peek_memWriteList _ _ _ s hm]
  constructor
  · rintro k hk rfl
    have hoff : s.dataAddr k - s.dataAddr 0 = k := by simp [State.dataAddr]
    rw [if_pos ⟨by simp [State.dataAddr], by simpa [State.dataAddr, bcdDigits] using hk, ha⟩, hoff,
      bcdDigits_toNat _ hk]
  · intro hne
    refine if_neg fun ⟨hlo, hhi, _⟩ => hne (a - s.i.toNat) ?_ ?_
    · simp only [State.dataAddr, bcdDigits, List.length_cons, List.length_nil] at hlo hhi
      omega
    · simp only [State.dataAddr] at hlo ⊢
      omega

/-- Settles O39: both instructions leave `pc`, so the next fetch reads the bytes at the same two addresses. -/
theorem nextFetchSeesStores : Obligations.NextFetchSeesStores := by
  intro x s t hm
  simp only [fetchedHigh_eq_peek, fetchedLow_eq_peek]
  constructor
  · intro h
    have hpc : t.pc = s.pc := exec_keeps_pc h rfl
    rw [hpc]
    exact ⟨rfl, fun ha => dump_byte hm h ha, fun ha => dump_byte hm h ha⟩
  · intro h
    have hpc : t.pc = s.pc := exec_keeps_pc h rfl
    rw [hpc]
    exact ⟨rfl, fun ha => bcd_byte hm h ha, fun ha => bcd_byte hm h ha⟩

/-! ### An instruction placed for the next step -/

/-- Both bytes of a placed instruction are in memory. -/
theorem placeAddr_inRange (s : State) : placeAddr s + 1 < memSize := by
  unfold placeAddr
  split
  · assumption
  · decide

/-- Placing an instruction changes `pc`, memory, `key_waiting`, the place in the frame and the diagnostics, nothing
else. -/
theorem placeInstr_only (w : Word) (s : State) :
    placeInstr w s =
      { s with pc := BitVec.ofNat 16 (placeAddr s), mem := (placeInstr w s).mem, keyWaiting := false,
               phase := .running 0 (s.cfg.instructionsPerFrame - 1 + 1), diags := (placeInstr w s).diags } := by
  unfold placeInstr
  rw [memWriteList_only]
  rfl

theorem placeInstr_pc_toNat (w : Word) (s : State) : (placeInstr w s).pc.toNat = placeAddr s := by
  have ha := placeAddr_inRange s
  rw [placeInstr_only, BitVec.toNat_ofNat]
  unfold memSize at ha
  omega

/-- The bytes at `placeAddr` are those of the placed word, in memory order (R44). -/
theorem placeInstr_peek (w : Word) (s : State) (hm : Memory.wf s.cfg.font s.mem) {k : Nat} (hk : k < 2) :
    (placeInstr w s).peek (placeAddr s + k) = (bytesOfWord w).getD k 0 := by
  have ha := placeAddr_inRange s
  have hoff : placeAddr s + k - placeAddr s = k := by omega
  unfold placeInstr
  rw [State.setPhase_peek, State.setKeyWaiting_peek,
    peek_memWriteList _ _ _ (s.setPc (BitVec.ofNat 16 (placeAddr s))) hm,
    if_pos ⟨by omega, by simpa [bytesOfWord] using hk, by omega⟩, hoff]

/-- The word fetched after the placement is the placed word (R44). -/
theorem placeInstr_fetchWord (w : Word) (s : State) (hm : Memory.wf s.cfg.font s.mem) :
    (placeInstr w s).fetchWord = w := by
  have hhi : (placeInstr w s).peek (placeAddr s) = w.extractLsb' 8 8 := placeInstr_peek w s hm (k := 0) (by decide)
  have hlo : (placeInstr w s).peek (placeAddr s + 1) = w.extractLsb' 0 8 := placeInstr_peek w s hm (k := 1) (by decide)
  have hw := w.isLt
  apply BitVec.eq_of_toNat_eq
  rw [State.fetchWord, placeInstr_pc_toNat, hhi, hlo, toNat_append', toNat_field, toNat_field]
  omega

theorem withFetchWord_eq_placeInstr (w : Word) (s : State) : s.withFetchWord 16 w.toNat = placeInstr w s := by
  rw [State.withFetchWord, Nat.mod_eq_of_lt w.isLt, BitVec.ofNat_toNat, BitVec.setWidth_eq]

/-- Inside a loop that does not end, a step counts, fetches and runs an instruction (R60, R170). -/
theorem step_of_running {s : State} {ran left : Nat} (hp : s.phase = .running ran left)
    (hloop : loopEnds ran left s = false) :
    step s = exec (decode s.fetchWord) (countInstr ran left s).afterFetch := by
  obtain ⟨hp', -⟩ | ⟨hp', -⟩ | ⟨r, l, hp', hends, -⟩ | ⟨r, l, hp', -, -, hstep⟩ := step_cases s
  · cases hp.symm.trans hp'
  · cases hp.symm.trans hp'
  · cases hp.symm.trans hp'
    cases hloop.symm.trans hends
  · cases hp.symm.trans hp'
    exact hstep

/-- The loop does not end before a frame's first instruction when the machine is Running and the budget is not 0. -/
theorem loopEnds_first {s : State} (hk : s.keyWaiting = false) (left : Nat) : loopEnds 0 (left + 1) s = false := by
  simp [loopEnds, hk]

/-- Settles O9: the placed state is inside the loop, before its first instruction, and fetches the placed word. -/
theorem placedWordIsRunNext : Obligations.PlacedWordIsRunNext := by
  intro s w hm
  rw [withFetchWord_eq_placeInstr]
  have hphase : (placeInstr w s).phase = .running 0 (s.cfg.instructionsPerFrame - 1 + 1) := by rw [placeInstr_only]
  have hrunning : (placeInstr w s).keyWaiting = false := by rw [placeInstr_only]
  refine ⟨_, (step_of_running hphase (loopEnds_first hrunning _)).trans (by rw [placeInstr_fetchWord w s hm]), ?_⟩
  rw [afterFetch_only, placeInstr_only]
  exact ⟨rfl, rfl, rfl, rfl, rfl, rfl, rfl⟩

end Sys2Proof.Machine
end

section
/-! PROOFS. The decoder and the encoder are inverse to each other, and the words no row recognises (R61 to R73). -/

namespace Sys2Proof

/-! ### A word is its format with its own fields (R62) -/

theorem wordA_of_op {w : Word} {k : BitVec 4} (hop : fieldOp w = k) : wordA k (fieldNnn w) = w :=
  hop ▸ wordA_fields w

theorem wordRI_of_op {w : Word} {k : BitVec 4} (hop : fieldOp w = k) : wordRI k (fieldX w) (fieldKk w) = w :=
  hop ▸ wordRI_fields w

theorem wordRI_of_op_kk {w : Word} {k : BitVec 4} {kk : Byte} (hop : fieldOp w = k) (hkk : fieldKk w = kk) :
    wordRI k (fieldX w) kk = w :=
  hkk ▸ wordRI_of_op hop

theorem wordRR_of_op {w : Word} {k : BitVec 4} (hop : fieldOp w = k) :
    wordRR k (fieldX w) (fieldY w) (fieldN w) = w :=
  hop ▸ wordRR_fields w

theorem wordRR_of_op_n {w : Word} {k n : BitVec 4} (hop : fieldOp w = k) (hn : fieldN w = n) :
    wordRR k (fieldX w) (fieldY w) n = w :=
  hn ▸ wordRR_of_op hop

/-! ### The secondary switches: what they decode has the word they were given (R67, R69, R70) -/

theorem encode_decodeFamily0 (w : Word) : encode (decodeFamily0 w) = w := by
  unfold decodeFamily0
  split_ifs with hcls hret
  · exact hcls.symm
  · exact hret.symm
  · rfl

theorem encode_decodeFamily8 {w : Word} (hop : fieldOp w = 8) : encode (decodeFamily8 w) = w := by
  unfold decodeFamily8
  split_ifs
  case neg => rfl
  all_goals exact wordRR_of_op_n hop ‹_›

theorem encode_decodeFamilyE {w : Word} (hop : fieldOp w = 14) : encode (decodeFamilyE w) = w := by
  unfold decodeFamilyE
  split_ifs with hskp hsknp
  · exact wordRI_of_op_kk hop hskp
  · exact wordRI_of_op_kk hop hsknp
  · rfl

theorem encode_decodeFamilyF {w : Word} (hop : fieldOp w = 15) : encode (decodeFamilyF w) = w := by
  unfold decodeFamilyF
  split_ifs
  case neg => rfl
  all_goals exact wordRI_of_op_kk hop ‹_›

/-! ### The secondary switches: when they fall through to the no-op -/

theorem decodeFamily0_eq_nop_iff (w : Word) : decodeFamily0 w = .nop w ↔ w ∉ [0x00E0#16, 0x00EE#16] := by
  unfold decodeFamily0
  split_ifs <;> simp [*]

theorem decodeFamily8_eq_nop_iff (w : Word) :
    decodeFamily8 w = .nop w ↔ fieldN w ∉ [0#4, 1#4, 2#4, 3#4, 4#4, 5#4, 6#4, 7#4, 14#4] := by
  unfold decodeFamily8
  split_ifs <;> simp [*]

theorem decodeFamilyE_eq_nop_iff (w : Word) : decodeFamilyE w = .nop w ↔ fieldKk w ∉ [0x9E#8, 0xA1#8] := by
  unfold decodeFamilyE
  split_ifs <;> simp [*]

theorem decodeFamilyF_eq_nop_iff (w : Word) :
    decodeFamilyF w = .nop w ↔
      fieldKk w ∉ [0x07#8, 0x0A#8, 0x15#8, 0x18#8, 0x1E#8, 0x29#8, 0x33#8, 0x55#8, 0x65#8] := by
  unfold decodeFamilyF
  split_ifs <;> simp [*]

/-! ### The dispatch by the top nibble (R64) -/

/-- The values of `op` that select a row of R66 without a secondary switch. -/
def primaryOps : List (BitVec 4) := [1, 2, 3, 4, 5, 6, 7, 9, 10, 11, 12, 13]

/-- The outcomes of the dispatch: one of the four secondary switches, or the instruction of a primary family, which has
the word that was dispatched and is never a no-op. -/
inductive Dispatched (w : Word) : Instr → Prop
  | family0 (hop : fieldOp w = 0) : Dispatched w (decodeFamily0 w)
  | family8 (hop : fieldOp w = 8) : Dispatched w (decodeFamily8 w)
  | familyE (hop : fieldOp w = 14) : Dispatched w (decodeFamilyE w)
  | familyF (hop : fieldOp w = 15) : Dispatched w (decodeFamilyF w)
  | primary {i : Instr} {k : BitVec 4} (hop : fieldOp w = k) (hk : k ∈ primaryOps) (hword : encode i = w)
      (hnop : ∀ u, i ≠ .nop u) : Dispatched w i

theorem decode_dispatched (w : Word) : Dispatched w (decode w) := by
  unfold decode
  refine iteInduction (fun h0 => .family0 h0) fun h0 => ?_
  refine iteInduction (fun h1 => .primary h1 (by decide) (wordA_of_op h1) nofun) fun h1 => ?_
  refine iteInduction (fun h2 => .primary h2 (by decide) (wordA_of_op h2) nofun) fun h2 => ?_
  refine iteInduction (fun h3 => .primary h3 (by decide) (wordRI_of_op h3) nofun) fun h3 => ?_
  refine iteInduction (fun h4 => .primary h4 (by decide) (wordRI_of_op h4) nofun) fun h4 => ?_
  refine iteInduction (fun h5 => .primary h5 (by decide) (wordRR_of_op h5) nofun) fun h5 => ?_
  refine iteInduction (fun h6 => .primary h6 (by decide) (wordRI_of_op h6) nofun) fun h6 => ?_
  refine iteInduction (fun h7 => .primary h7 (by decide) (wordRI_of_op h7) nofun) fun h7 => ?_
  refine iteInduction (fun h8 => .family8 h8) fun h8 => ?_
  refine iteInduction (fun h9 => .primary h9 (by decide) (wordRR_of_op h9) nofun) fun h9 => ?_
  refine iteInduction (fun hA => .primary hA (by decide) (wordA_of_op hA) nofun) fun hA => ?_
  refine iteInduction (fun hB => .primary hB (by decide) (wordA_of_op hB) nofun) fun hB => ?_
  refine iteInduction (fun hC => .primary hC (by decide) (wordRI_of_op hC) nofun) fun hC => ?_
  refine iteInduction (fun hD => .primary hD (by decide) (wordRR_of_op hD) nofun) fun hD => ?_
  refine iteInduction (fun hE => .familyE hE) fun hE => ?_
  exact .familyF (by simpa [*] using nibble_cases (fieldOp w))

/-- Decoding drops no bit (R61, R73). -/
theorem encode_decode (w : Word) : encode (decode w) = w := by
  have h := decode_dispatched w
  generalize decode w = i at h ⊢
  cases h with
  | family0 => exact encode_decodeFamily0 w
  | family8 hop => exact encode_decodeFamily8 hop
  | familyE hop => exact encode_decodeFamilyE hop
  | familyF hop => exact encode_decodeFamilyF hop
  | primary _ _ hword => exact hword

/-! ### The words no row recognises (R65, R66) -/

/-- R66's classes of words that no row recognises, by the secondary switch that lets them through. -/
def Unlisted (w : Word) : Prop :=
  (fieldOp w = 0 ∧ w ∉ [0x00E0#16, 0x00EE#16]) ∨
  (fieldOp w = 8 ∧ fieldN w ∉ [0#4, 1#4, 2#4, 3#4, 4#4, 5#4, 6#4, 7#4, 14#4]) ∨
  (fieldOp w = 14 ∧ fieldKk w ∉ [0x9E#8, 0xA1#8]) ∨
  (fieldOp w = 15 ∧ fieldKk w ∉ [0x07#8, 0x0A#8, 0x15#8, 0x18#8, 0x1E#8, 0x29#8, 0x33#8, 0x55#8, 0x65#8])

theorem decode_eq_nop_iff_unlisted (w : Word) : decode w = .nop w ↔ Unlisted w := by
  have h := decode_dispatched w
  generalize decode w = i at h ⊢
  unfold Unlisted
  cases h with
  | family0 hop => simp [hop, decodeFamily0_eq_nop_iff]
  | family8 hop => simp [hop, decodeFamily8_eq_nop_iff]
  | familyE hop => simp [hop, decodeFamilyE_eq_nop_iff]
  | familyF hop => simp [hop, decodeFamilyF_eq_nop_iff]
  | primary hop hk _ hnop =>
    subst hop
    refine iff_of_false (hnop w) ?_
    -- none of the four nibbles with a secondary switch is primary
    rintro (⟨h, -⟩ | ⟨h, -⟩ | ⟨h, -⟩ | ⟨h, -⟩) <;> exact absurd (h ▸ hk) (by decide)

theorem not_recognised_of_unlisted {w : Word} (h : Unlisted w) : recognised w = false := by
  rw [recognised_eq, opRows_selects, opRowsLow_selects, opRowsFamily8_selects, opRowsHigh_selects,
    opRowsFamilyF_selects]
  obtain ⟨hop, hsub⟩ | h := h
  · simpa [hop] using hsub
  have hop0 : fieldOp w ≠ 0 := by
    rintro hop
    simp [hop] at h
  obtain ⟨hcls, hret⟩ : w ≠ 0x00E0#16 ∧ w ≠ 0x00EE#16 := ne_family0_of_fieldOp hop0
  obtain ⟨hop, hsub⟩ | ⟨hop, hsub⟩ | ⟨hop, hsub⟩ := h <;> simpa [hop, hcls, hret] using hsub

/-! ### Every instruction has its own row of R66 -/

section ownRow

open Laws.EncodesOwnRow

theorem encode_selects_own_row (i : Instr) : Statement i := by
  cases i
  exacts [cls, ret, jp _, call _, seImm _ _, sneImm _ _, seReg _ _ _, ldImm _ _, addImm _ _, ldReg _ _, orReg _ _,
    andReg _ _, xorReg _ _, addReg _ _, subReg _ _, shrReg _ _, subnReg _ _, shlReg _ _, sneReg _ _ _, ldI _, jpOff _,
    rnd _ _, drw _ _ _, skp _, sknp _, ldDt _, ldKey _, setDt _, setSt _, addI _, ldGlyph _, bcd _, dump _, load _,
    nop _]

/-- The row of a word's instruction selects the word. -/
theorem decode_row_selects (w : Word) : ∃ r, opTable[(decode w).row]? = some r ∧ r.selects w = true := by
  have h := encode_selects_own_row (decode w)
  rwa [Statement, encode_decode] at h

end ownRow

/-- Only the no-op has the last row, number 34. -/
theorem row_lt_or_eq_nop (i : Instr) : i.row < opRows.length ∨ ∃ u, i = .nop u := by
  cases i
  case nop u => exact .inr ⟨u, rfl⟩
  all_goals exact .inl (show _ < 34 by simp [Instr.row])

theorem opTable_getElem?_of_lt {j : Nat} (hj : j < opRows.length) : opTable[j]? = opRows[j]? :=
  List.getElem?_append_left hj

/-- A word whose instruction is no no-op is recognised, by the instruction's own row. -/
theorem recognised_of_decode_ne_nop {w : Word} (h : decode w ≠ .nop w) : recognised w = true := by
  obtain ⟨r, hr, hsel⟩ := decode_row_selects w
  obtain hlt | ⟨u, hu⟩ := row_lt_or_eq_nop (decode w)
  · rw [opTable_getElem?_of_lt hlt] at hr
    exact List.any_eq_true.2 ⟨r, List.mem_of_getElem? hr, hsel⟩
  · have huw : encode (.nop u) = w := hu ▸ encode_decode w
    exact absurd (hu.trans (congrArg Instr.nop huw)) h

/-- The decoder falls through to the no-op exactly on the words no row recognises (R65, R73). -/
theorem decode_eq_nop_iff (w : Word) : decode w = .nop w ↔ recognised w = false := by
  refine ⟨fun h => not_recognised_of_unlisted ((decode_eq_nop_iff_unlisted w).1 h), fun h => ?_⟩
  by_contra hne
  exact absurd (recognised_of_decode_ne_nop hne) (by simp [h])

/-- A decoded no-op carries the word it was decoded from. -/
theorem eq_of_decode_eq_nop {w u : Word} (h : decode w = .nop u) : u = w :=
  show encode (.nop u) = w from h ▸ encode_decode w

theorem wf_of_ne_nop {i : Instr} (h : ∀ u, i ≠ .nop u) : i.wf = true := by
  cases i
  case nop u => exact absurd rfl (h u)
  all_goals rfl

theorem decode_wf (w : Word) : (decode w).wf = true := by
  by_cases h : ∃ u, decode w = .nop u
  · obtain ⟨u, hu⟩ := h
    cases eq_of_decode_eq_nop hu
    rw [hu, Instr.wf, (decode_eq_nop_iff w).1 hu]; rfl
  · exact wf_of_ne_nop (not_exists.1 h)

theorem decode_encode {i : Instr} (hi : i.wf = true) : decode (encode i) = i := by
  cases i
  case nop w => exact (decode_eq_nop_iff w).2 (by simpa [Instr.wf] using hi)
  case cls | ret => decide
  case ldReg | orReg | andReg | xorReg | addReg | subReg | shrReg | subnReg | shlReg =>
    simp [encode, decode, decodeFamily8]
  case skp | sknp => simp [encode, decode, decodeFamilyE]
  case ldDt | ldKey | setDt | setSt | addI | ldGlyph | bcd | dump | load => simp [encode, decode, decodeFamilyF]
  all_goals simp [encode, decode]

/-- Settles O2, by the fields of each format; the no-op because no row recognises its word. -/
theorem decodeOfEncode : Obligations.DecodeOfEncode := fun _ hi => decode_encode hi

/-- Settles O3, by the outcomes of the dispatch. -/
theorem encodeOfDecode : Obligations.EncodeOfDecode := fun w => ⟨decode_wf w, encode_decode w⟩

/-! ### The rows of R66 are disjoint -/

/-- Two rows whose bits differ under both masks select no word in common. -/
theorem not_selects_both {r q : OpRow} (hne : r.pat &&& q.mask ≠ q.pat &&& r.mask) {w : Word}
    (hr : r.selects w = true) (hq : q.selects w = true) : False := by
  rw [OpRow.selects, beq_iff_eq] at hr hq
  refine hne ?_
  calc r.pat &&& q.mask = w &&& r.mask &&& q.mask := by rw [hr]
    _ = w &&& q.mask &&& r.mask := by rw [BitVec.and_assoc, BitVec.and_comm r.mask, BitVec.and_assoc]
    _ = q.pat &&& r.mask := by rw [hq]

theorem opRows_pairwise : opRows.Pairwise (fun r q => r.pat &&& q.mask ≠ q.pat &&& r.mask) := by decide

/-- Settles O5: any two of the rows ask for different bits under the mask they share. -/
theorem opcodeRowsDoNotOverlap : Obligations.OpcodeRowsDoNotOverlap := by
  intro w j k r q hj hk hr hq
  obtain ⟨hjlt, rfl⟩ := List.getElem?_eq_some_iff.1 hj
  obtain ⟨hklt, rfl⟩ := List.getElem?_eq_some_iff.1 hk
  have hpair := List.pairwise_iff_getElem.1 opRows_pairwise
  obtain hlt | heq | hgt := Nat.lt_trichotomy j k
  · exact (not_selects_both (hpair j k hjlt hklt hlt) hr hq).elim
  · exact heq
  · exact (not_selects_both (hpair k j hklt hjlt hgt) hq hr).elim

/-- A row of the 34 that selects a word is the row of its instruction. -/
theorem eq_row_of_selects {w : Word} {j : Nat} {q : OpRow} (hq : opRows[j]? = some q) (hsel : q.selects w = true) :
    j = (decode w).row := by
  have hrec : recognised w = true := List.any_eq_true.2 ⟨q, List.mem_of_getElem? hq, hsel⟩
  obtain ⟨r, hr, hown⟩ := decode_row_selects w
  obtain hlt | ⟨u, hu⟩ := row_lt_or_eq_nop (decode w)
  · exact opcodeRowsDoNotOverlap w j _ q r hq (opTable_getElem?_of_lt hlt ▸ hr) hsel hown
  · cases eq_of_decode_eq_nop hu
    exact absurd ((decode_eq_nop_iff w).1 hu) (by simp [hrec])

/-- Settles O4: the row of the instruction selects the word, and a row above it that did would be the same row. -/
theorem decodePicksFirstRow : Obligations.DecodePicksFirstRow := by
  intro w
  obtain ⟨r, hr, hsel⟩ := decode_row_selects w
  obtain ⟨hlt, rfl⟩ := List.getElem?_eq_some_iff.1 hr
  refine ((List.findIdx_eq hlt).2 ⟨hsel, fun j hj => Bool.eq_false_iff.2 fun hjsel => ?_⟩).symm
  have hj34 : j < opRows.length := Nat.lt_of_lt_of_le hj (Nat.le_of_lt_succ hlt)
  have hjrow : opRows[j]? = some opTable[j] := by
    rw [← opTable_getElem?_of_lt hj34, List.getElem?_eq_getElem]
  exact hj.ne (eq_row_of_selects hjrow hjsel)

/-! ### The no-op words, as R66 lists them -/

theorem eq_iff_fieldNnn_eq {w p : Word} (hop : fieldOp w = fieldOp p) : w = p ↔ fieldNnn w = fieldNnn p :=
  ⟨congrArg fieldNnn, fun h => by rw [← wordA_fields w, hop, h, wordA_fields]⟩

theorem family0_iff_nnn {w : Word} (hop : fieldOp w = 0) :
    w ∉ [0x00E0#16, 0x00EE#16] ↔ fieldNnn w ≠ 0x0E0 ∧ fieldNnn w ≠ 0x0EE := by
  have hcls : w = 0x00E0#16 ↔ fieldNnn w = 0x0E0 := eq_iff_fieldNnn_eq hop
  have hret : w = 0x00EE#16 ↔ fieldNnn w = 0x0EE := eq_iff_fieldNnn_eq hop
  simp only [List.mem_cons, List.not_mem_nil, or_false, not_or, hcls, hret, ne_eq]

theorem family8_iff_toNat : ∀ n : BitVec 4, n ∉ [0#4, 1#4, 2#4, 3#4, 4#4, 5#4, 6#4, 7#4, 14#4] ↔
    n.toNat ∈ [0x8, 0x9, 0xA, 0xB, 0xC, 0xD, 0xF] := by decide

theorem mem_map_toNat_iff {n : Nat} (k : BitVec n) (l : List (BitVec n)) : k ∈ l ↔ k.toNat ∈ l.map BitVec.toNat :=
  (List.mem_map_of_injective BitVec.toNat_injective).symm

theorem unlisted_iff (w : Word) : Unlisted w ↔
    ((fieldOp w = 0x0 ∧ fieldNnn w ≠ 0x0E0 ∧ fieldNnn w ≠ 0x0EE) ∨
     (fieldOp w = 0x8 ∧ (fieldN w).toNat ∈ [0x8, 0x9, 0xA, 0xB, 0xC, 0xD, 0xF]) ∨
     (fieldOp w = 0xE ∧ (fieldKk w).toNat ∉ [0x9E, 0xA1]) ∨
     (fieldOp w = 0xF ∧ (fieldKk w).toNat ∉ [0x07, 0x0A, 0x15, 0x18, 0x1E, 0x29, 0x33, 0x55, 0x65])) := by
  refine or_congr (and_congr_right family0_iff_nnn) (or_congr (and_congr_right fun _ => family8_iff_toNat _)
    (or_congr (and_congr_right fun _ => ?_) (and_congr_right fun _ => ?_)))
  · exact not_congr (mem_map_toNat_iff _ [0x9E#8, 0xA1#8])
  · exact not_congr (mem_map_toNat_iff _ _)

/-- Settles O6: the four secondary switches are the only ways to the no-op. -/
theorem unrecognisedWordsAreNoOps : Obligations.UnrecognisedWordsAreNoOps := fun w =>
  ⟨(decode_eq_nop_iff_unlisted w).trans (unlisted_iff w), fun h => ⟨(decode_eq_nop_iff w).2 h, fun _ => rfl⟩⟩

/-- Settles O1: closed words, decoded by evaluation. -/
theorem decodeOfSampleWords : Obligations.DecodeOfSampleWords := by
  unfold Obligations.DecodeOfSampleWords
  decide

end Sys2Proof
end

section
/-! PROOFS. Executing a decoded word: the low nibble that families 5 and 9 ignore (R68), and the fetch of `Step()` and
of the machine's step (R60, R170). -/

namespace Sys2Proof.Machine

open Sys2Proof.Claims

theorem decode_family5 {w : Word} (hop : fieldOp w = 5) : decode w = .seReg (fieldX w) (fieldY w) (fieldN w) := by
  simp [decode, hop]

theorem decode_family9 {w : Word} (hop : fieldOp w = 9) : decode w = .sneReg (fieldX w) (fieldY w) (fieldN w) := by
  simp [decode, hop]

/-- Settles O7: both families execute without reading `n`. -/
theorem families5And9IgnoreLowNibble : Obligations.Families5And9IgnoreLowNibble := by
  rintro w u s (h5 | h9) hop hx hy
  · rw [decode_family5 h5, decode_family5 (hop.trans h5), hx, hy]; rfl
  · rw [decode_family9 h9, decode_family9 (hop.trans h9), hx, hy]; rfl

/-- The next byte is a draw's exactly when its high nibble is 0xD (R171). -/
theorem nextIsDraw_iff (s : State) : nextIsDraw s = true ↔ (s.peek s.pc.toNat).toNat / 16 = 0xD := by
  have hlt := (s.peek s.pc.toNat).isLt
  rw [nextIsDraw, beq_iff_eq, ← BitVec.toNat_inj, BitVec.extractLsb'_toNat, Nat.shiftRight_eq_div_pow,
    Nat.mod_eq_of_lt (by omega)]
  rfl

/-- In a state about to run, the loop goes on (R170). -/
theorem loopEnds_of_aboutToRun {s : State} {ran left : Nat} (h : AboutToRun s ran left) :
    loopEnds ran left s = false := by
  obtain ⟨-, hleft, hkey, hdraw⟩ := h
  obtain ⟨left, rfl⟩ := Nat.exists_eq_succ_of_ne_zero hleft.ne'
  rw [← nextIsDraw_iff] at hdraw
  simpa [loopEnds, hkey] using hdraw

/-- The fetch advances `pc` by 2 modulo 65536 (R14). -/
theorem afterFetch_pc_toNat (s : State) : s.afterFetch.pc.toNat = (s.pc.toNat + 2) % 65536 := by
  rw [afterFetch_only]
  exact pc_add_two s.pc

/-- Settles O8: the fetched word is the instruction's, so the step decodes it back. -/
theorem stepRunsDecodedInstruction : Obligations.StepRunsDecodedInstruction := by
  intro i s ran left hwf habout hword
  have hloop := loopEnds_of_aboutToRun habout
  obtain ⟨hphase, -⟩ := habout
  have hdecode : decode s.fetchWord = i := (congrArg decode hword.symm).trans (decode_encode hwf)
  refine ⟨(countInstr ran left s).afterFetch, ?_, afterFetch_pc_toNat _, fetch_phase ran left s, afterFetch_diags _, ?_⟩
  · rw [step_of_running hphase hloop, hdecode]
  · rw [afterFetch_only]; rfl

/-- Settles O10: `cpuStep` is the fetch and the execution, unless a key is awaited. -/
theorem stepFunctionOfR60 : Obligations.StepFunctionOfR60 := by
  refine fun s => ⟨fun hw => if_pos hw, fun hw => ⟨s.afterFetch, if_neg (by simp [hw]), afterFetch_pc_toNat s,
    afterFetch_diags s, ?_⟩⟩
  rw [afterFetch_only]

end Sys2Proof.Machine
end

section
/-! PROOFS. Jumps, calls and returns: where they go, and what becomes of the stack (40_control_flow.md, R81 to R85). -/

namespace Sys2Proof.Machine

open Sys2Proof.Claims

/-! ### The jumps -/

/-- Zero extension keeps the value (R63). -/
@[simp] theorem zext16_toNat (nnn : BitVec 12) : (zext16 nnn).toNat = nnn.toNat :=
  BitVec.toNat_setWidth_of_le (by decide)

theorem setPc_onlyPc (w : Word) (s : State) : OnlyPc s (s.setPc w) := ⟨rfl, s.setPc_peek w⟩

/-- Settles O17: the meaning is one write of `pc`, of the target zero-extended. -/
theorem jumpGoesToTarget : Obligations.JumpGoesToTarget :=
  fun nnn s => ⟨s.setPc (zext16 nnn), rfl, zext16_toNat nnn, setPc_onlyPc _ s⟩

theorem decode_familyB {w : Word} (hop : fieldOp w = 0xB) : decode w = .jpOff (fieldNnn w) := by
  simp [decode, hop]

/-- The selector, the top nibble of `nnn`, is the field `x` of the word (R84). -/
theorem jumpSelector_fieldNnn (cfg : Config) (w : Word) :
    jumpSelector cfg (fieldNnn w) = if cfg.jumpUsesVx then fieldX w else 0 := by
  have hx : (fieldNnn w).extractLsb' 8 4 = w.extractLsb' 8 4 :=
    BitVec.extractLsb'_extractLsb'_of_le (by decide)
  rw [jumpSelector, hx, fieldX]

/-- Settles O18: the word decodes to the offset jump, whose selector is its field `x`. -/
theorem offsetJumpAddsSelectedRegister : Obligations.OffsetJumpAddsSelectedRegister := by
  intro w s hop
  rw [decode_familyB hop]
  refine ⟨_, rfl, setPc_onlyPc _ s, ?_⟩
  rw [State.setPc_pc, mask12_toNat, jumpSelector_fieldNnn]

/-! ### One call, one return -/

theorem exec_call (nnn : BitVec 12) (s : State) : exec (.call nnn) s = .next (pushJump (zext16 nnn) s) := rfl

theorem exec_ret (s : State) : exec .ret s = .next (popJump s) := rfl

/-- A call raises the depth by 1, but never above 15 (R83). -/
theorem pushJump_sp_val (target : Word) (s : State) : (pushJump target s).sp.val = min 15 (s.sp.val + 1) := by
  by_cases h : s.sp = 15
  · rw [pushJump_ignored target s h, State.addDiag_sp, h]; rfl
  · rw [pushJump_accepted target s h, min_eq_right (by omega)]
    exact Fin.val_add_one_of_lt (lt_of_le_of_ne (Fin.le_last s.sp) h)

/-- A call records one `STACK_OVERFLOW` at depth 15, and nothing below it (R83, R154). -/
theorem pushJump_diags (target : Word) (s : State) :
    (pushJump target s).diags = List.replicate (s.sp.val + 1 - 15) .stackOverflow ++ s.diags := by
  by_cases h : s.sp = 15
  · rw [pushJump_ignored target s h, h]; rfl
  · rw [pushJump_accepted target s h, Nat.sub_eq_zero_of_le (by omega)]; rfl

/-- What the slots hold after an accepted call (R83). -/
theorem pushJump_slot (target : Word) (s : State) (h : s.sp ≠ 15) (k : Fin 16) :
    (pushJump target s).stack[k.val] = if k = s.sp then s.pc else s.stack[k.val] := by
  rw [pushJump_accepted target s h]
  exact s.slot_setSlot s.sp k s.pc

/-- Settles O19: below depth 15 each clause is a field of `pushJump_accepted`. -/
theorem callPushesOrIsIgnored : Obligations.CallPushesOrIsIgnored := by
  intro nnn s
  refine ⟨_, exec_call nnn s, exec_keeps_peek (exec_call nnn s) (fun _ => ⟨nofun, nofun⟩), fun h => ?_,
    pushJump_ignored _ s⟩
  refine ⟨?_, fun k hk => ?_, ?_, ?_, ?_⟩
  · rw [pushJump_slot _ s h, if_pos rfl]
  · rw [pushJump_slot _ s h, if_neg hk]
  · rw [pushJump_sp_val, min_eq_right (by omega)]
  · rw [pushJump_accepted _ s h]; exact zext16_toNat nnn
  · rw [pushJump_accepted _ s h]

/-- A return at depth `k + 1` goes to what slot `k` holds, at depth `k` (R81). -/
theorem popJump_of_sp_succ {s : State} {k : Fin 16} (h : s.sp.val = k.val + 1) :
    popJump s = { s with sp := k, pc := s.stack[k.val] } := by
  have hne : s.sp ≠ 0 := by omega
  obtain rfl : k = s.sp - 1 := by ext; rw [Fin.val_sub_one_of_ne_zero hne, h, Nat.add_sub_cancel]
  exact popJump_accepted s hne

/-- Settles O20: above depth 0 each clause is a field of `popJump_of_sp_succ`. -/
theorem returnPopsOrIsIgnored : Obligations.ReturnPopsOrIsIgnored := by
  intro s
  refine ⟨_, exec_ret s, exec_keeps_peek (exec_ret s) (fun _ => ⟨nofun, nofun⟩), fun k hk => ?_, popJump_ignored s⟩
  rw [popJump_of_sp_succ hk]
  exact ⟨rfl, rfl, rfl⟩

/-! ### A call and its return, and a nest of calls -/

/-- Settles O21: the return pops the slot that the call pushed. -/
theorem returnUndoesCall : Obligations.ReturnUndoesCall := by
  intro nnn s t u hsp hcall hstack hdepth
  cases hcall
  have hu : u.sp.val = s.sp.val + 1 := by rw [hdepth, pushJump_sp_val, min_eq_right (by omega)]
  refine ⟨_, exec_ret u, ?_⟩
  rw [popJump_of_sp_succ hu]
  refine ⟨?_, rfl, rfl⟩
  simp only [hstack]
  rw [pushJump_slot _ s hsp, if_pos rfl]

/-- A nest of calls from any depth: it stops at 15, and each call beyond records one `STACK_OVERFLOW` (R83). -/
theorem calls_from_depth (targets : List (BitVec 12)) (s : State) :
    ∃ t, calls targets s = .next t ∧ t.sp.val = min 15 (s.sp.val + targets.length) ∧
      t.diags = List.replicate (s.sp.val + targets.length - 15) .stackOverflow ++ s.diags ∧
      t.stack[15] = s.stack[15] := by
  induction targets generalizing s with
  | nil =>
    refine ⟨s, rfl, ?_, ?_, rfl⟩
    · rw [List.length_nil]; omega
    · rw [List.length_nil, Nat.sub_eq_zero_of_le (by omega)]; rfl
  | cons nnn rest ih =>
    obtain ⟨t, hcalls, hsp, hdiags, htop⟩ := ih (pushJump (zext16 nnn) s)
    rw [pushJump_sp_val] at hsp hdiags
    refine ⟨t, hcalls, ?_, ?_, htop.trans (exec_keeps_topSlot (exec_call nnn s))⟩
    · rw [hsp, List.length_cons]; omega
    · rw [hdiags, pushJump_diags, ← List.append_assoc, List.replicate_append_replicate, List.length_cons]
      congr 2; omega

/-- Settles O22: the nest from depth 0. -/
theorem fifteenNestedCallsAreAccepted : Obligations.FifteenNestedCallsAreAccepted := by
  intro targets s h0
  simpa [h0] using calls_from_depth targets s

end Sys2Proof.Machine
end

section
/-! PROOFS. Arithmetic and logic: what the register writes leave, the flag values as numbers, and the order of the
result and the flag (41_arith_logic.md, R90 to R104; `Fx07`, R140). -/

namespace Sys2Proof.Machine

open Sys2Proof.Claims

/-! ### One register written -/

/-- A change of `V` alone leaves every byte of memory. -/
theorem onlyRegs_of_eq {s t : State} (h : t = { s with v := t.v }) : OnlyRegs s t :=
  ⟨h, fun _ => by rw [h]; rfl⟩

theorem setReg_onlyRegs (x : RegIdx) (b : Byte) (s : State) : OnlyRegs s (s.setReg x b) := onlyRegs_of_eq rfl

theorem setReg_regsExcept (x : RegIdx) (b : Byte) (s : State) : RegsExcept x s (s.setReg x b) :=
  fun r hr => (s.reg_setReg x r b).trans (if_neg hr)

/-- Settles O24: each of the three is one register write. -/
theorem loadsWriteOneRegister : Obligations.LoadsWriteOneRegister := by
  intro x y kk s
  have hwrite (b : Byte) : (s.setReg x b).reg x = b ∧ RegsExcept x s (s.setReg x b) ∧ OnlyRegs s (s.setReg x b) :=
    ⟨s.reg_setReg_self x b, setReg_regsExcept x b s, setReg_onlyRegs x b s⟩
  exact ⟨⟨_, rfl, hwrite kk⟩, ⟨_, rfl, hwrite (s.reg y)⟩, ⟨_, rfl, hwrite s.dt⟩⟩

/-- Settles O25: one register write, of the sum cut to a byte. -/
theorem addImmediateWrapsSilently : Obligations.AddImmediateWrapsSilently := by
  refine fun x kk s => ⟨_, rfl, ?_, setReg_regsExcept x _ s, setReg_onlyRegs x _ s⟩
  rw [State.reg_setReg_self, BitVec.toNat_ofNat]

/-- Settles O30: one register write after one draw; a committed draw is the next one. -/
theorem randomWritesMaskedDraw : Obligations.RandomWritesMaskedDraw := by
  intro x kk s
  have hbits (k : Nat) : ((s.takeDraw.setReg x (s.nextDraw &&& kk)).reg x).getLsbD k =
      (s.nextDraw.getLsbD k && kk.getLsbD k) := by
    rw [State.reg_setReg_self, BitVec.getLsbD_and]
  refine ⟨_, rfl, ⟨s.nextDraw, fun k _ => hbits k⟩, setReg_regsExcept x _ s.takeDraw, fun _ => rfl, rfl, ?_⟩
  intro draw rest hd
  have hnext : s.nextDraw = draw := by rw [State.nextDraw, hd, List.headD_cons]
  exact ⟨congrArg List.tail hd, fun k _ => hnext ▸ hbits k⟩

/-! ### The logic operations (R93 to R95) -/

/-- The combined value stays in `V[x]`, unless `x` is VF and the toggle resets it. -/
theorem logicVF_setReg_reg_self {x : RegIdx} {s : State} (h : ¬ (s.cfg.vfResetOnLogic = true ∧ x = 15)) (b : Byte) :
    (logicVF (s.setReg x b)).reg x = b := by
  rw [logicVF_reg, State.setReg_cfg, if_neg h, State.reg_setReg_self]

/-- What a logic operation leaves, and VF after it, whatever the combined value `b`. -/
theorem logicVF_setReg_frame (x : RegIdx) (b : Byte) (s : State) :
    RegsExceptVF x s (logicVF (s.setReg x b)) ∧ OnlyRegs s (logicVF (s.setReg x b)) ∧
      (s.cfg.vfResetOnLogic = true → (logicVF (s.setReg x b)).reg 15 = 0) ∧
      (s.cfg.vfResetOnLogic = false → x ≠ 15 → (logicVF (s.setReg x b)).reg 15 = s.reg 15) := by
  refine ⟨fun r hr hf => ?_, onlyRegs_of_eq (logic_only x b s), fun ht => ?_,
    fun ht hx => reg15_logic_of_ne hx b s ht⟩
  · rw [logicVF_reg, if_neg (fun h => hf h.2), setReg_regsExcept x b s r hr]
  · rw [logicVF_reg, State.setReg_cfg, if_pos ⟨ht, rfl⟩]

/-- Settles O26: the three differ only in the value combined. -/
theorem logicCombinesAndResetsVF : Obligations.LogicCombinesAndResetsVF := by
  refine fun x y s => ⟨_, _, _, rfl, rfl, rfl, fun h k _ => ?_, ?_⟩
  · rw [logicVF_setReg_reg_self h, logicVF_setReg_reg_self h, logicVF_setReg_reg_self h]
    exact ⟨BitVec.getLsbD_or, BitVec.getLsbD_and, BitVec.getLsbD_xor⟩
  · simp only [List.forall_mem_cons]
    exact ⟨logicVF_setReg_frame x _ s, logicVF_setReg_frame x _ s, logicVF_setReg_frame x _ s, nofun⟩

/-! ### The flag values (R34, R102) -/

theorem carryFlag_toNat (a b : Byte) : (carryFlag a b).toNat = if 256 ≤ a.toNat + b.toNat then 1 else 0 := by
  by_cases h : 256 ≤ a.toNat + b.toNat <;> simp [carryFlag, flagByte, h]

theorem notBorrowFlag_toNat (a b : Byte) : (notBorrowFlag a b).toNat = if a.toNat < b.toNat then 0 else 1 := by
  have hneg : (a.toNat : Int) - b.toNat < 0 ↔ a.toNat < b.toNat := by omega
  by_cases h : a.toNat < b.toNat <;> simp [notBorrowFlag, flagByte, hneg, h]

theorem shiftOutLow_toNat (a : Byte) : (shiftOutLow a).toNat = a.toNat % 2 := by
  rw [shiftOutLow, BitVec.toNat_and]
  exact Nat.and_one_is_mod _

theorem shiftOutHigh_toNat (a : Byte) : (shiftOutHigh a).toNat = a.toNat / 128 := by
  have hlt := a.isLt
  rw [shiftOutHigh, BitVec.toNat_and, BitVec.toNat_ushiftRight, Nat.shiftRight_eq_div_pow]
  exact (Nat.and_one_is_mod _).trans (Nat.mod_eq_of_lt (by omega))

/-- The difference cut to a byte, as a number (R97, R99, R102). -/
theorem ofInt_sub_toNat (a b : Byte) :
    (BitVec.ofInt 8 ((a.toNat : Int) - b.toNat)).toNat = (256 + a.toNat - b.toNat) % 256 := by
  have hb := b.isLt
  rw [BitVec.toNat_ofInt]
  omega

/-! ### The result first, the flag last (R96, R97, R99, R104) -/

/-- A result written to `V[x]`, then a flag to VF: VF ends as the flag, also with `x = 15`. -/
theorem result_then_flag (x : RegIdx) (b f : Byte) (s : State) :
    (x ≠ 15 → ((s.setReg x b).setVF f).reg x = b) ∧ ((s.setReg x b).setVF f).reg 15 = f ∧
      RegsExceptVF x s ((s.setReg x b).setVF f) ∧ OnlyRegs s ((s.setReg x b).setVF f) := by
  refine ⟨fun hx => ?_, ?_, fun r hr hf => ?_, onlyRegs_of_eq rfl⟩
  · rw [State.reg_setVF, if_neg hx, State.reg_setReg_self]
  · rw [State.reg_setVF, if_pos rfl]
  · rw [State.reg_setVF, if_neg hf, setReg_regsExcept x b s r hr]

/-- Settles O27: the sum is the result, the carry the flag. -/
theorem addWritesSumThenCarry : Obligations.AddWritesSumThenCarry := by
  intro x y s
  obtain ⟨hresult, hflag, hframe⟩ := result_then_flag x
    (BitVec.ofNat 8 ((s.reg x).toNat + (s.reg y).toNat)) (carryFlag (s.reg x) (s.reg y)) s
  refine ⟨_, rfl, fun hx => ?_, ?_, hframe⟩
  · rw [hresult hx, BitVec.toNat_ofNat]
  · rw [hflag, carryFlag_toNat]

/-- The difference `a - b` written to `V[x]`, then its not-borrow to VF (R97, R99). -/
theorem difference_then_notBorrow (x : RegIdx) (a b : Byte) (s t : State)
    (ht : t = (s.setReg x (BitVec.ofInt 8 (a.toNat - b.toNat))).setVF (notBorrowFlag a b)) :
    (x ≠ 15 → (t.reg x).toNat = (256 + a.toNat - b.toNat) % 256) ∧
      (t.reg 15).toNat = (if a.toNat < b.toNat then 0 else 1) ∧ RegsExceptVF x s t ∧ OnlyRegs s t := by
  obtain ⟨hresult, hflag, hframe⟩ := result_then_flag x (BitVec.ofInt 8 (a.toNat - b.toNat)) (notBorrowFlag a b) s
  subst ht
  refine ⟨fun hx => ?_, ?_, hframe⟩
  · rw [hresult hx, ofInt_sub_toNat]
  · rw [hflag, notBorrowFlag_toNat]

/-- Settles O28: the two differ only in which operand is subtracted. -/
theorem subtractsWriteDifferenceThenNotBorrow : Obligations.SubtractsWriteDifferenceThenNotBorrow := fun x y s =>
  ⟨⟨_, rfl, difference_then_notBorrow x (s.reg x) (s.reg y) s _ rfl⟩,
    ⟨_, rfl, difference_then_notBorrow x (s.reg y) (s.reg x) s _ rfl⟩⟩

/-! ### The flag first, the shift last (R98, R100, R104) -/

/-- What the shifts are about to shift, as the source line leaves it in `V[x]`. -/
theorem shiftSource_reg_toNat (x y : RegIdx) (s : State) :
    ((shiftSource x y s).reg x).toNat = shiftOperand x y s := by
  rw [shiftSource_reg, shiftOperand, apply_ite BitVec.toNat]
  simp only [and_true]

theorem shiftSource_regsExcept (x y : RegIdx) (s : State) : RegsExcept x s (shiftSource x y s) :=
  fun r hr => (shiftSource_reg x y r s).trans (if_neg fun h => hr h.2)

/-- A flag written to VF, then `V[x]` shifted by `shift`: with `x = 15` it is the flag that is shifted (R104, D11). -/
theorem flag_then_shift (x : RegIdx) (f : Byte) (shift : Byte → Byte) (u t : State)
    (ht : t = (u.setVF f).setReg x (shift ((u.setVF f).reg x))) :
    (x ≠ 15 → t.reg x = shift (u.reg x) ∧ t.reg 15 = f) ∧ (x = 15 → t.reg 15 = shift f) ∧ RegsExceptVF x u t := by
  subst ht
  refine ⟨fun hx => ⟨?_, ?_⟩, ?_, fun r hr hf => ?_⟩
  · rw [State.reg_setReg_self, State.reg_setVF, if_neg hx]
  · rw [reg15_setReg_of_ne hx, State.reg_setVF, if_pos rfl]
  · rintro rfl
    rw [State.reg_setReg_self, State.reg_setVF, if_pos rfl]
  · rw [setReg_regsExcept x _ _ r hr, State.reg_setVF, if_neg hf]

/-- `8xy6`, from any operand in `V[x]` (R98). -/
theorem shiftRightStep_writes (x : RegIdx) (u : State) :
    (x ≠ 15 → ((shiftRightStep x u).reg x).toNat = (u.reg x).toNat / 2 ∧
        ((shiftRightStep x u).reg 15).toNat = (u.reg x).toNat % 2) ∧
      (x = 15 → (shiftRightStep x u).reg 15 = 0) ∧ RegsExceptVF x u (shiftRightStep x u) := by
  obtain ⟨hne, heq, hregs⟩ := flag_then_shift x (shiftOutLow (u.reg x)) (· >>> 1) u (shiftRightStep x u) rfl
  refine ⟨fun hx => ?_, fun hx => ?_, hregs⟩
  · obtain ⟨hresult, hflag⟩ := hne hx
    rw [hresult, hflag, shiftOutLow_toNat, BitVec.toNat_ushiftRight, Nat.shiftRight_eq_div_pow]
    exact ⟨rfl, rfl⟩
  · apply BitVec.eq_of_toNat_eq
    rw [heq hx, BitVec.toNat_ushiftRight, shiftOutLow_toNat, Nat.shiftRight_eq_div_pow]
    exact Nat.div_eq_of_lt (Nat.mod_lt _ two_pos)

/-- `8xyE`, from any operand in `V[x]` (R100). -/
theorem shiftLeftStep_writes (x : RegIdx) (u : State) :
    (x ≠ 15 → ((shiftLeftStep x u).reg x).toNat = (u.reg x).toNat * 2 % 256 ∧
        ((shiftLeftStep x u).reg 15).toNat = (u.reg x).toNat / 128) ∧
      (x = 15 → ((shiftLeftStep x u).reg 15).toNat = if 128 ≤ (u.reg x).toNat then 2 else 0) ∧
      RegsExceptVF x u (shiftLeftStep x u) := by
  obtain ⟨hne, heq, hregs⟩ := flag_then_shift x (shiftOutHigh (u.reg x)) (· <<< 1) u (shiftLeftStep x u) rfl
  refine ⟨fun hx => ?_, fun hx => ?_, hregs⟩
  · obtain ⟨hresult, hflag⟩ := hne hx
    rw [hresult, hflag, shiftOutHigh_toNat, BitVec.toNat_shiftLeft, Nat.shiftLeft_eq]
    exact ⟨rfl, rfl⟩
  · have hlt := (u.reg x).isLt
    rw [heq hx, BitVec.toNat_shiftLeft, shiftOutHigh_toNat, Nat.shiftLeft_eq]
    split <;> omega

/-- Settles O29: the source line puts the operand in `V[x]`, and each step shifts what is there. -/
theorem shiftsWriteFlagThenShift : Obligations.ShiftsWriteFlagThenShift := by
  intro x y s
  have hregs {t : State} (h : RegsExceptVF x (shiftSource x y s) t) : RegsExceptVF x s t :=
    fun r hr hf => (h r hr hf).trans (shiftSource_regsExcept x y s r hr)
  obtain ⟨hrNe, hrEq, hrRegs⟩ := shiftRightStep_writes x (shiftSource x y s)
  obtain ⟨hlNe, hlEq, hlRegs⟩ := shiftLeftStep_writes x (shiftSource x y s)
  rw [shiftSource_reg_toNat] at hrNe hlNe hlEq
  exact ⟨⟨_, rfl, hrNe, hrEq, hregs hrRegs, onlyRegs_of_eq (shiftRight_only x y s)⟩,
    ⟨_, rfl, hlNe, hlEq, hregs hlRegs, onlyRegs_of_eq (shiftLeft_only x y s)⟩⟩

end Sys2Proof.Machine
end

section
/-! PROOFS. Skips: where `pc` goes, for the two polarities of a condition (42_skip.md, R110 to R116). -/

namespace Sys2Proof.Machine

open Sys2Proof.Claims

theorem skipIf_changes_onlyPc (c : Bool) (s : State) : OnlyPc s (skipIf c s) := by
  cases c
  · exact ⟨rfl, fun _ => rfl⟩
  · exact setPc_onlyPc _ s

theorem skipIf_pc_toNat (c : Bool) (s : State) :
    (skipIf c s).pc.toNat = if c then (s.pc.toNat + 2) % 65536 else s.pc.toNat := by
  cases c
  · rfl
  · exact pc_add_two s.pc

/-- A skip on a condition: `3xkk`, `5xyn` and `Ex9E` (R110, R112, R114, R116). -/
theorem skipIf_of_iff {c : Bool} {p : Prop} [Decidable p] (h : c = true ↔ p) (s : State) :
    OnlyPc s (skipIf c s) ∧
      (skipIf c s).pc.toNat = if p then (s.pc.toNat + 2) % 65536 else s.pc.toNat := by
  simp only [← h]
  exact ⟨skipIf_changes_onlyPc c s, skipIf_pc_toNat c s⟩

/-- A skip on the opposite of a condition: `4xkk`, `9xyn` and `ExA1` (R111, R113, R115, R116). -/
theorem skipIf_of_iff_not {c : Bool} {p : Prop} [Decidable p] (h : c = true ↔ ¬ p) (s : State) :
    OnlyPc s (skipIf c s) ∧
      (skipIf c s).pc.toNat = if p then s.pc.toNat else (s.pc.toNat + 2) % 65536 := by
  rw [← ite_not]
  exact skipIf_of_iff h s

/-- Settles O31: four skips, each on an equality of bytes or on its opposite. -/
theorem skipsOnRegisters : Obligations.SkipsOnRegisters := fun _ _ _ _ s =>
  ⟨⟨_, rfl, skipIf_of_iff beq_iff_eq s⟩, ⟨_, rfl, skipIf_of_iff_not bne_iff_ne s⟩,
    ⟨_, rfl, skipIf_of_iff beq_iff_eq s⟩, ⟨_, rfl, skipIf_of_iff_not bne_iff_ne s⟩⟩

/-- The low four bits of a byte, as a number (R114, R115). -/
theorem lowNibble_val (b : Byte) : (lowNibble b).val = b.toNat % 16 :=
  BitVec.extractLsb'_toNat 0 4 b

/-- The level that `Ex9E` and `ExA1` look at (R27, R114, R115). -/
theorem keyHeld_keyOperand (x : RegIdx) (s : State) :
    keyHeld s.keys (s.keyOperand x) = s.keys.getLsbD ((s.reg x).toNat % 16) :=
  congrArg s.keys.getLsbD (lowNibble_val (s.reg x))

/-- Settles O32: two skips, on the level of one key or on its opposite. -/
theorem skipsOnKeys : Obligations.SkipsOnKeys := by
  intro x s
  rw [← keyHeld_keyOperand]
  exact ⟨⟨_, rfl, skipIf_of_iff Iff.rfl s⟩, ⟨_, rfl, skipIf_of_iff_not Bool.not_iff_not s⟩⟩

end Sys2Proof.Machine
end

section
/-! PROOFS. The address register and the bytes at `I`: `Annn`, `Fx1E`, `Fx29`, `Fx33`, `Fx55`, `Fx65`
(43_memory_ops.md, R120 to R125). -/

namespace Sys2Proof.Machine

open Sys2Proof.Claims

/-! ### The writers of `I` -/

theorem setI_onlyI (w : Word) (s : State) : OnlyI s (s.setI w) := ⟨rfl, s.setI_peek w⟩

/-- Settles O33: each of the three is one write of `I`. -/
theorem addressRegisterWriters : Obligations.AddressRegisterWriters := by
  refine fun x nnn s => ⟨⟨_, rfl, zext16_toNat nnn, setI_onlyI _ s⟩, ⟨_, rfl, mask12_toNat _, setI_onlyI _ s⟩,
    ⟨_, rfl, ?_, setI_onlyI _ s⟩⟩
  rw [State.setI_i, BitVec.toNat_ofNat, lowNibble_val]
  omega

/-! ### Bytes out of range, and what the advance of `I` leaves (R42, R124, R125) -/

/-- No byte exists at 4096 or above: it reads as 0 (R42). -/
theorem peek_outOfRange {a : Nat} (ha : 4096 ≤ a) (s : State) : s.peek a = 0 := if_neg ha.not_gt

@[simp] theorem advanceI_reg (x r : RegIdx) (s : State) : (advanceI x s).reg r = s.reg r := by
  rw [advanceI_only]; rfl

@[simp] theorem advanceI_peek (x : RegIdx) (s : State) (a : Nat) : (advanceI x s).peek a = s.peek a := by
  rw [advanceI_only]; rfl

@[simp] theorem advanceI_diags (x : RegIdx) (s : State) : (advanceI x s).diags = s.diags := by
  rw [advanceI_only]

/-! ### `Fx33` (R123) -/

/-- The frame of `Fx33`: the bytes it does not store over read as before, also out of range. -/
theorem bcd_keeps_byte {x : RegIdx} {s t : State} (hm : Memory.wf s.cfg.font s.mem) (h : exec (.bcd x) s = .next t)
    {a : Nat} (ha : ∀ k < 3, s.dataAddr k ≠ a) : t.peek a = s.peek a := by
  obtain hlt | hge := lt_or_ge a 4096
  · exact (bcd_byte hm h hlt).2 ha
  · rw [peek_outOfRange hge, peek_outOfRange hge]

/-- Settles O36: the digits land by `bcd_byte`, and `memWriteList` records each one dropped. -/
theorem bcdStoresThreeDigits : Obligations.BcdStoresThreeDigits := by
  intro x s hm
  have h : exec (.bcd x) s = .next (memWriteList (s.dataAddr 0) (bcdDigits (s.reg x)) s) := rfl
  refine ⟨_, h, fun ha => ?_, fun ha => (bcd_byte hm h ha).1 1 (by decide) rfl, fun ha => ?_, fun a h0 h1 h2 => ?_,
    memWriteList_diags _ _ s, memWriteList_only _ _ s⟩
  · have hv := (s.reg x).isLt
    rw [(bcd_byte hm h ha).1 0 (by decide) rfl]
    omega
  · rw [(bcd_byte hm h ha).1 2 (by decide) rfl, pow_zero, Nat.div_one]
  · refine bcd_keeps_byte hm h fun k hk => ?_
    interval_cases k
    · exact h0.symm
    · exact h1.symm
    · exact h2.symm

/-! ### `Fx55` and `Fx65` (R124, R125) -/

/-- Settles O37: the loop's bytes and diagnostics, then the advance of `I`. -/
theorem dumpStoresRegisters : Obligations.DumpStoresRegisters := by
  intro x s hm
  obtain ⟨hstored, hkept⟩ := dumpRegs_peek (regsUpTo x) s hm (regsUpTo_nodup x)
  refine ⟨_, rfl, fun r hr ha => ?_, fun a ha => ?_, ?_, ?_, ?_⟩
  · rw [advanceI_peek]
    exact hstored r ((regsUpTo_mem x r).2 hr) ha
  · rw [advanceI_peek]
    exact hkept a fun r hr => ha r ((regsUpTo_mem x r).1 hr)
  · rw [advanceI_i, dumpRegs_cfg, dumpRegs_i]
  · rw [advanceI_diags, dumpRegs_diags, regsUpTo_count]
  · rw [advanceI_only, dumpRegs_only]

/-- A register after `Fx65`: the byte at its address up to `x`, itself above (R125). -/
theorem load_reg {x : RegIdx} {s t : State} (h : exec (.load x) s = .next t) (r : RegIdx) :
    t.reg r = if r ≤ x then s.peek (s.dataAddr r.val) else s.reg r := by
  cases h
  simp only [advanceI_reg, loadRegs_reg, regsUpTo_mem]

/-- Settles O38: the loop's registers and diagnostics, then the advance of `I`; a byte out of range reads as 0. -/
theorem loadReadsRegisters : Obligations.LoadReadsRegisters := by
  intro x s
  have h : exec (.load x) s = .next (advanceI x (loadRegs (regsUpTo x) s)) := rfl
  refine ⟨_, h, load_reg h, fun r hr ha => ?_, exec_keeps_peek h fun _ => ⟨nofun, nofun⟩, ?_, ?_, ?_⟩
  · rw [load_reg h, if_pos hr]
    exact peek_outOfRange ha s
  · rw [advanceI_i, loadRegs_cfg, loadRegs_i]
  · rw [advanceI_diags, loadRegs_diags, regsUpTo_count]
  · rw [advanceI_only, loadRegs_only]

/-- Settles O40: the load reads, at the same addresses, the bytes that the dump stored. -/
theorem loadAfterDumpRestoresRegisters : Obligations.LoadAfterDumpRestoresRegisters := by
  intro x s t u w hm hdump hmem hcfg hi hload r hr ha
  have haddr : u.dataAddr r.val = s.dataAddr r.val := by rw [State.dataAddr, State.dataAddr, hi]
  calc w.reg r = u.peek (u.dataAddr r.val) := by rw [load_reg hload, if_pos hr]
    _ = t.peek (s.dataAddr r.val) := by rw [haddr, State.peek, State.peek, hmem, hcfg]
    _ = s.reg r := (dump_byte hm hdump ha).1 r hr rfl

end Sys2Proof.Machine
end

section
/-! PROOFS. Drawing: what one `Dxyn` does to the screen and the flag, and what a second one does (44_draw.md, R130 to
R133). -/

namespace Sys2Proof.Machine

open Sys2Proof.Claims

/-- Settles O41: the cleared grid has no pixel set. -/
theorem clearScreenClearsEveryPixel : Obligations.ClearScreenClearsEveryPixel := fun s =>
  ⟨_, rfl, fbGet_fbClear, s.setFb_peek fbClear, rfl⟩

/-! ### What the loops of `Dxyn` compute, in the words of R131 -/

/-- The pixels that the loops invert are those under a set bit of the sprite. -/
theorem pixelCovered_iff_spriteCovers (x y : RegIdx) (n : BitVec 4) (s : State) (c : Fin 64) (r : Fin 32) :
    pixelCovered s ((s.reg x).toNat % 64) ((s.reg y).toNat % 32) (List.range n.toNat) c r = true ↔
      SpriteCovers x y n s c r := by
  simp only [pixelCovered, List.any_eq_true, List.mem_range, Bool.and_eq_true, decide_eq_true_eq,
    colCovered_iff _ _ _ (Nat.mod_lt _ (by decide : 0 < 64))]
  constructor
  · rintro ⟨row, hrow, hr, col, hcol, hc, hbit⟩
    exact ⟨row, col, hrow, hcol, hr.symm, hc, hbit⟩
  · rintro ⟨row, col, hrow, hcol, hr, hc, hbit⟩
    exact ⟨row, hrow, hr.symm, col, hcol, hc, hbit⟩

/-- How many of the first `n` sprite rows are on the screen and read from 4096 or above. -/
theorem count_rows_outOfRange (n y0 i : Nat) :
    ((List.range n).filter fun row => decide (y0 + row < 32) && decide (4096 ≤ i + row)).length =
      min (min n (32 - y0)) (i + min n (32 - y0) - 4096) := by
  induction n with
  | zero => simp
  | succ n ih =>
    rw [List.range_succ, List.filter_append, List.length_append, ih, List.filter_singleton, ← Bool.decide_and]
    by_cases h : y0 + n < 32 ∧ 4096 ≤ i + n
    · rw [decide_eq_true h, cond_true, List.length_singleton]
      omega
    · rw [decide_eq_false h, cond_false, List.length_nil]
      omega

/-- Settles O42: `drawRows_spec` says what the loops do; the one change of `V` is the flag written after them. -/
theorem drawXorsSprite : Obligations.DrawXorsSprite := by
  intro x y n s
  obtain ⟨hfb, hhit, hdiags⟩ := drawRows_spec s ((s.reg x).toNat % 64) ((s.reg y).toNat % 32)
    (List.range n.toNat) List.pairwise_lt_range s false rfl (fun _ => rfl) rfl
  have honly := drawRows_only ((s.reg x).toNat % 64) ((s.reg y).toNat % 32) (List.range n.toNat) s false
  simp only [pixelCovered_iff_spriteCovers, Bool.false_eq_true, false_or] at hhit
  have hcov := pixelCovered_iff_spriteCovers x y n s
  refine ⟨_, rfl, fun c r h => ?_, fun c r h => ?_, fun ⟨c, r, hc, hset⟩ => ?_, fun hclear => ?_, fun r hr => ?_,
    fun a => ?_, ?_, ?_⟩
  · rw [State.setVF_fb, hfb, (hcov c r).2 h, Bool.xor_true]
  · rw [State.setVF_fb, hfb, Bool.eq_false_iff.2 (mt (hcov c r).1 h), Bool.xor_false]
  · rw [State.reg_setVF, if_pos rfl, hhit.2 ⟨c, r, hset, hc⟩]
    rfl
  · have hmiss : ¬ ∃ c r, fbGet s.fb c r = true ∧ SpriteCovers x y n s c r :=
      fun ⟨c, r, hset, hc⟩ => Bool.eq_false_iff.1 (hclear c r hc) hset
    rw [State.reg_setVF, if_pos rfl, Bool.eq_false_iff.2 (mt hhit.1 hmiss)]
    rfl
  · rw [State.reg_setVF, if_neg hr, honly]
    rfl
  · rw [State.setVF_peek, honly]
    rfl
  · rw [State.setVF_diags, hdiags, count_rows_outOfRange]
  · rw [honly]
    rfl

/-! ### The second draw -/

/-- The pixels under a sprite depend on the coordinates, on the addresses and bytes read, and on the clipping. -/
theorem spriteCovers_congr {x y : RegIdx} {n : BitVec 4} {s t : State}
    (hx : (t.reg x).toNat % 64 = (s.reg x).toNat % 64) (hy : (t.reg y).toNat % 32 = (s.reg y).toNat % 32)
    (hi : t.i = s.i) (hcfg : t.cfg = s.cfg) (hpeek : ∀ a, t.peek a = s.peek a) (c : Fin 64) (r : Fin 32) :
    SpriteCovers x y n t c r ↔ SpriteCovers x y n s c r := by
  simp only [SpriteCovers, State.dataAddr, hx, hy, hi, hcfg, hpeek]

/-- Settles O43: both draws cover the same pixels, so each is inverted twice; on a clear screen the pixels set after
the first draw are those covered. -/
theorem drawingTwiceRestoresScreen : Obligations.DrawingTwiceRestoresScreen := by
  intro x y n s t u hst htu hx hy
  obtain ⟨t', ht', invT, keepT, -, clearT, -, hpeek, -, honly⟩ := drawXorsSprite x y n s
  cases next_inj (hst.symm.trans ht')
  obtain ⟨u', hu', invU, keepU, setU, clearU, -⟩ := drawXorsSprite x y n t
  cases next_inj (htu.symm.trans hu')
  have hi : t.i = s.i := by rw [honly]
  have hcfg : t.cfg = s.cfg := by rw [honly]
  have hsame := spriteCovers_congr (n := n) hx hy hi hcfg hpeek
  refine ⟨fb_ext fun c r => ?_, fun hs => ⟨clearT fun c r _ => hs c r, fun hu => ?_, fun ⟨c, r, hc⟩ => ?_⟩⟩
  · by_cases hc : SpriteCovers x y n s c r
    · rw [invU c r ((hsame c r).2 hc), invT c r hc, Bool.not_not]
    · rw [keepU c r (mt (hsame c r).1 hc), keepT c r hc]
  · by_contra hnone
    have hzero := clearU fun c r hc => absurd ⟨c, r, (hsame c r).1 hc⟩ hnone
    exact absurd (hu.symm.trans hzero) (by decide)
  · have hset : fbGet t.fb c r = true := by rw [invT c r hc, hs c r, Bool.not_false]
    exact setU ⟨c, r, (hsame c r).2 hc, hset⟩

end Sys2Proof.Machine
end

section
/-! PROOFS. The timers and the wait for a key: what `Fx15`, `Fx18` and `Fx0A` write (45_timer_key.md, R141 to R143).
What they leave unchanged is `exec_writes` and `exec_keeps_peek`. -/

namespace Sys2Proof.Machine

open Sys2Proof.Claims

/-- `Fx15` writes `DT` (R141). -/
theorem exec_setDt (x : RegIdx) (s : State) : exec (.setDt x) s = .next (s.setDt (s.reg x)) := rfl

/-- `Fx18` writes `ST` and no `sound_enable` (R142). -/
theorem exec_setSt (x : RegIdx) (s : State) : exec (.setSt x) s = .next (s.setSt (s.reg x)) := rfl

/-- `Fx0A` writes the three pieces of the key wait (R143). -/
theorem exec_ldKey (x : RegIdx) (s : State) :
    exec (.ldKey x) s = .next (((s.setKeyWaiting true).setKeyTarget x).setKeysObserved 0) := rfl

/-- Settles O44: each timer takes the register's byte, and the instruction may write nothing else. -/
theorem timersAreSetFromRegister : Obligations.TimersAreSetFromRegister := by
  intro x s
  have hdt := exec_setDt x s
  have hst := exec_setSt x s
  constructor
  · exact ⟨_, hdt, State.setDt_dt s _, exec_keeps_peek hdt fun _ => ⟨nofun, nofun⟩, exec_writes hdt⟩
  · exact ⟨_, hst, State.setSt_st s _, exec_keeps_peek hst fun _ => ⟨nofun, nofun⟩, exec_writes hst⟩

/-- Settles O45: the observed set is empty, and the instruction may write nothing but the key wait. -/
theorem waitForKeySuspends : Obligations.WaitForKeySuspends := by
  intro x s
  have h := exec_ldKey x s
  refine ⟨_, h, ?waiting, ?target, ?observed, exec_keeps_peek h fun _ => ⟨nofun, nofun⟩, exec_writes h⟩
  case waiting => simp
  case target => simp
  case observed => simp

end Sys2Proof.Machine
end

section
/-! PROOFS. The tick: both timers count down to 0, and the sound lasts as many ticks as `ST` (60_exceptions.md, R160). -/

namespace Sys2Proof.Machine

/-- The output of a tick comes from `ST` before the tick's decrement (R160). -/
@[simp] theorem tick_soundEnable (s : State) : (tick s).soundEnable = decide (0 < s.st.toNat) := rfl

@[simp] theorem tick_dt_toNat (s : State) : (tick s).dt.toNat = s.dt.toNat - 1 := countDown_toNat s.dt

@[simp] theorem tick_st_toNat (s : State) : (tick s).st.toNat = s.st.toNat - 1 := countDown_toNat s.st

/-- Settles O46: one clause for each of the three pieces of state that a tick writes. -/
theorem tickCountsDown : Obligations.TickCountsDown := fun s =>
  ⟨tick_soundEnable s, tick_dt_toNat s, tick_st_toNat s, tick_only s⟩

/-- After `k` ticks both timers are `k` less, floored at 0 (R18, R19). -/
theorem tick_iterate_timers (s : State) (k : Nat) :
    (tick^[k] s).st.toNat = s.st.toNat - k ∧ (tick^[k] s).dt.toNat = s.dt.toNat - k := by
  induction k with
  | zero => exact ⟨rfl, rfl⟩
  | succ k ih =>
    obtain ⟨hst, hdt⟩ := ih
    rw [Function.iterate_succ_apply', tick_st_toNat, tick_dt_toNat, hst, hdt]
    exact ⟨Nat.sub_sub .., Nat.sub_sub ..⟩

/-- Settles O47: tick number `k + 1` outputs what the `k` ticks before it left of `ST`. -/
theorem soundLastsAsManyTicksAsTimer : Obligations.SoundLastsAsManyTicksAsTimer := by
  intro s k
  obtain ⟨hst, hdt⟩ := tick_iterate_timers s k
  refine ⟨hst, hdt, ?_⟩
  rw [Function.iterate_succ_apply', tick_soundEnable, hst, decide_eq_true_iff, Nat.sub_pos_iff_lt]

end Sys2Proof.Machine
end

section
/-! PROOFS. The key service: it delivers the lowest key that was observed and is now released, or observes the keys
held and waits on (60_exceptions.md, R165, R166). -/

namespace Sys2Proof.Machine

/-- Key `k` was observed pressed in an earlier service and is not held now (R165). -/
def Released (keys : Keys) (s : State) (k : Fin 16) : Prop :=
  s.keysObserved.getLsbD k.val = true ∧ keys.getLsbD k.val = false

/-- `k` is the key that R165's ascending scan delivers. -/
def LowestReleased (keys : Keys) (s : State) (k : Fin 16) : Prop :=
  Released keys s k ∧ ∀ j < k, ¬ Released keys s j

/-- A key that is still held was not released. -/
theorem not_released_of_held {keys : Keys} {s : State}
    (h : ∀ k : Fin 16, s.keysObserved.getLsbD k.val = true → keys.getLsbD k.val = true) (k : Fin 16) :
    ¬ Released keys s k :=
  fun ⟨hseen, hup⟩ => Bool.noConfusion ((h k hseen).symm.trans hup)

theorem LowestReleased.unique {keys : Keys} {s : State} {k l : Fin 16} (hk : LowestReleased keys s k)
    (hl : LowestReleased keys s l) : k = l :=
  le_antisymm (not_lt.1 fun h => hk.2 l h hl.1) (not_lt.1 fun h => hl.2 k h hk.1)

/-- The state in which a service ends the wait: `k` in the target register, `obs` observed (R165). -/
def deliverKey (k : Fin 16) (obs : Keys) (s : State) : State :=
  ((s.setKeysObserved obs).setReg s.keyTarget (BitVec.ofNat 8 k.val)).setKeyWaiting false

@[simp] theorem deliverKey_keyWaiting (k : Fin 16) (obs : Keys) (s : State) :
    (deliverKey k obs s).keyWaiting = false := rfl

@[simp] theorem deliverKey_keysObserved (k : Fin 16) (obs : Keys) (s : State) :
    (deliverKey k obs s).keysObserved = obs := rfl

theorem deliverKey_reg (k : Fin 16) (obs : Keys) (s : State) (r : RegIdx) :
    (deliverKey k obs s).reg r = if r = s.keyTarget then BitVec.ofNat 8 k.val else s.reg r :=
  State.reg_setReg (s.setKeysObserved obs) s.keyTarget r _

/-- R165: a Running machine has nothing to service. -/
theorem keyService_running {s : State} (hw : s.keyWaiting = false) (keys : Keys) : keyService keys s = s :=
  if_neg (by simp [hw])

/-- R165: what one service of a waiting machine does. Either no key was released, and the held keys are observed; or
the lowest released key is delivered, and the held keys below it are observed. -/
theorem keyService_waiting {s : State} (hw : s.keyWaiting = true) (keys : Keys) :
    ((∀ k, ¬ Released keys s k) ∧ keyService keys s = s.setKeysObserved (s.keysObserved ||| keys)) ∨
    ∃ k obs, LowestReleased keys s k ∧ keyService keys s = deliverKey k obs s ∧
      ∀ j : Fin 16, obs.getLsbD j.val =
        (s.keysObserved.getLsbD j.val || (keys.getLsbD j.val && decide (j < k))) := by
  obtain ⟨hnone, hheld, hobs⟩ | ⟨k, hsome, hseen, hup, hlow, hobs⟩ := scanKeys_all keys s.keysObserved
  · refine .inl ⟨not_released_of_held hheld, (keyService_none hw hnone).trans ?_⟩
    congr 1
    refine BitVec.eq_of_getLsbD_eq fun j hj => ?_
    rw [BitVec.getLsbD_or, ← hobs ⟨j, hj⟩]
  · exact .inr ⟨k, _, ⟨⟨hseen, hup⟩, hlow⟩, keyService_some hw hsome, hobs⟩

/-- A service with no released key observes the held ones and waits on (R166). -/
theorem keyService_none_released {keys : Keys} {s : State} (hw : s.keyWaiting = true)
    (h : ∀ k, ¬ Released keys s k) : keyService keys s = s.setKeysObserved (s.keysObserved ||| keys) := by
  obtain ⟨-, hs⟩ | ⟨k, -, ⟨hk, -⟩, -⟩ := keyService_waiting hw keys
  · exact hs
  · exact absurd hk (h k)

/-- A service with a released key delivers the lowest one (R165, R166). -/
theorem keyService_lowest_released {keys : Keys} {s : State} {k : Fin 16} (hw : s.keyWaiting = true)
    (hk : LowestReleased keys s k) :
    ∃ obs, keyService keys s = deliverKey k obs s ∧ ∀ j : Fin 16, obs.getLsbD j.val =
      (s.keysObserved.getLsbD j.val || (keys.getLsbD j.val && decide (j < k))) := by
  obtain ⟨hnone, -⟩ | ⟨l, obs, hl, hs, hobs⟩ := keyService_waiting hw keys
  · exact absurd hk.1 (hnone k)
  · cases hl.unique hk
    exact ⟨obs, hs, hobs⟩

/-- A service ends the wait exactly when some key was released (R164, R165). -/
theorem keyService_ends_iff {keys : Keys} {s : State} (hw : s.keyWaiting = true) :
    (keyService keys s).keyWaiting = false ↔ ∃ k, Released keys s k := by
  obtain ⟨hnone, hs⟩ | ⟨k, obs, ⟨hk, -⟩, hs, -⟩ := keyService_waiting hw keys
  · simp [hs, hw, hnone]
  · simpa [hs] using ⟨k, hk⟩

/-- Only the target register is ever written (R165). -/
theorem keyService_reg_of_ne {r : RegIdx} {s : State} (hr : r ≠ s.keyTarget) (keys : Keys) :
    (keyService keys s).reg r = s.reg r := by
  cases hw : s.keyWaiting with
  | false => rw [keyService_running hw]
  | true =>
    obtain ⟨-, hs⟩ | ⟨k, obs, -, hs, -⟩ := keyService_waiting hw keys
    · rw [hs]; rfl
    · rw [hs, deliverKey_reg, if_neg hr]

/-- Settles O49. -/
theorem keyServiceOfRunningMachineDoesNothing : Obligations.KeyServiceOfRunningMachineDoesNothing :=
  fun keys _ hw => keyService_running hw keys

/-- Settles O48, by whether a key was released. -/
theorem keyServiceDeliversLowestReleasedKey : Obligations.KeyServiceDeliversLowestReleasedKey := by
  intro keys s hw
  refine ⟨fun k hseen hup hlow => ?delivers, fun hheld => ?waits, fun r hr => keyService_reg_of_ne hr keys,
    keyService_only keys s⟩
  case delivers =>
    obtain ⟨obs, hs, hobs⟩ := keyService_lowest_released hw ⟨⟨hseen, hup⟩, hlow⟩
    rw [hs, deliverKey_reg, if_pos rfl]
    refine ⟨rfl, ?_, fun j hj => ?_, fun j hj => ?_⟩
    · exact (BitVec.toNat_ofNat k.val 8).trans (Nat.mod_eq_of_lt (k.isLt.trans (by decide)))
    · simpa [hj] using hobs j
    · simpa [hj.not_gt] using hobs j
  case waits =>
    rw [keyService_none_released hw (not_released_of_held hheld)]
    exact ⟨rfl, fun j => BitVec.getLsbD_or⟩

/-- Settles O50: nothing is observed when the wait begins, so the first service observes the keys held in it and
delivers none; the second compares with those. -/
theorem keyWaitNeedsPressThenRelease : Obligations.KeyWaitNeedsPressThenRelease := by
  intro x s t first second h
  cases next_inj ((exec_ldKey x s).symm.trans h)
  rw [keyService_none_released (keys := first) rfl fun k ⟨hk, _⟩ => by simp at hk]
  refine ⟨rfl, (keyService_ends_iff rfl).trans ?_⟩
  simp [Released]

end Sys2Proof.Machine
end

section
/-! PROOFS. Every instruction completes, and the machine never stops (R150, R189). -/

namespace Sys2Proof.Machine

/-- No meaning faults or refuses (R150, R156, R159). -/
theorem exec_completes (i : Instr) (s : State) : ∃ t, exec i s = .next t := by
  cases i
  case drw x y n =>
    obtain ⟨t, ht, -⟩ := execDrw_only x y n s
    exact ⟨t, ht⟩
  all_goals exact ⟨_, rfl⟩

/-- Settles O11. -/
theorem everyInstructionCompletes : Obligations.EveryInstructionCompletes := exec_completes

/-- No instruction moves the place in the frame (R170). -/
theorem exec_keeps_phase {i : Instr} {s t : State} (h : exec i s = .next t) : t.phase = s.phase := by
  obtain ⟨-, -, -, hphase, -⟩ := exec_keeps i s t h
  exact hphase

/-- Every operation of the frame protocol answers a state (R150, R170). -/
theorem step_completes (s : State) : ∃ t, step s = .next t := by
  obtain ⟨-, h⟩ | ⟨-, h⟩ | ⟨_, _, -, -, h⟩ | ⟨_, _, -, -, -, h⟩ := step_cases s
  case inr.inr.inr => rw [h]; exact exec_completes _ _
  all_goals exact ⟨_, h⟩

/-- Settles O12, by induction on the number of steps. -/
theorem machineNeverStops : Obligations.MachineNeverStops := by
  intro s k
  induction k generalizing s with
  | zero => exact ⟨s, rfl⟩
  | succ k ih =>
    obtain ⟨u, hu⟩ := step_completes s
    obtain ⟨t, ht⟩ := ih u
    exact ⟨t, u, hu, ht⟩

end Sys2Proof.Machine
end

section
/-! PROOFS. One step of the frame: which steps change the key wait, how a draw ends the loop, and how many instructions
a frame runs (60_exceptions.md, R164, R170 to R172). -/

namespace Sys2Proof.Machine

/-! ### The key wait (R164) -/

/-- A word that decodes to `Fx0A` has its pattern (R66). -/
theorem fields_of_decode_eq_ldKey {w : Word} {x : RegIdx} (h : decode w = .ldKey x) :
    fieldOp w = 0xF ∧ fieldKk w = 0x0A := by
  have hw : w = wordRI 0xF x 0x0A := (encode_decode w).symm.trans (congrArg encode h)
  rw [hw]
  exact ⟨fieldOp_wordRI .., fieldKk_wordRI ..⟩

/-- An instruction that enters AwaitingKey is `Fx0A` (R164). -/
theorem eq_ldKey_of_exec_waits {i : Instr} {s t : State} (h : exec i s = .next t) (hs : s.keyWaiting = false)
    (ht : t.keyWaiting = true) : ∃ x, i = .ldKey x := by
  by_contra hi
  obtain ⟨hkeep, -⟩ := exec_keeps_keyWait h fun x e => hi ⟨x, e⟩
  simp [hkeep, hs] at ht

/-- A Running machine begins a frame in its instruction loop (R170). -/
theorem beginFrame_running {s : State} (hw : s.keyWaiting = false) :
    beginFrame s = s.takeKeys.setPhase (.running 0 s.cfg.instructionsPerFrame) := if_neg (by simp [hw])

/-- A waiting machine begins a frame with its key service (R170). -/
theorem beginFrame_waiting {s : State} (hw : s.keyWaiting = true) :
    beginFrame s = (keyService s.nextKeys s.takeKeys).setPhase .tickDue := if_pos hw

/-- Settles O51, by the four operations of the frame protocol. -/
theorem onlyKeyInstructionsChangeWaitState : Obligations.OnlyKeyInstructionsChangeWaitState := by
  intro s t h
  obtain ⟨hp, hs⟩ | ⟨-, hs⟩ | ⟨ran, left, -, -, hs⟩ | ⟨ran, left, hp, -, hw, hs⟩ := step_cases s
  case inr.inr.inr => -- an instruction runs, so the machine is Running
    have hexec := hs.symm.trans h
    refine ⟨fun _ ht => ⟨ran, left, hp, ?_⟩, fun hw' => absurd hw' (by simp [hw])⟩
    obtain ⟨x, hx⟩ := eq_ldKey_of_exec_waits hexec (by rw [afterFetch_only]; exact hw) ht
    exact fields_of_decode_eq_ldKey hx
  all_goals cases next_inj (hs.symm.trans h)
  case inl =>
    refine ⟨fun hw ht => absurd ht (by simp [beginFrame_running hw, hw]), fun hw ht => ⟨hp, ?_⟩⟩
    rw [beginFrame_waiting hw] at ht ⊢
    rw [keyService_only]
    exact (keyService_ends_iff (s := s.takeKeys) hw).1 ht
  all_goals exact ⟨fun hw ht => absurd (hw.symm.trans ht) nofun, fun hw ht => absurd (hw.symm.trans ht) nofun⟩

/-! ### The end of the instruction loop (R170, R171) -/

/-- A step at the end of the loop leaves it (R170). -/
theorem step_of_loopEnds {s : State} {ran left : Nat} (hp : s.phase = .running ran left)
    (hends : loopEnds ran left s = true) : step s = .next (exitLoop s) := by
  simp [step, hp, hends]

/-- The top nibble of the byte at `pc` is the op field of the word there (R44, R61). -/
theorem nextIsDraw_eq (s : State) : nextIsDraw s = (fieldOp s.fetchWord == 0xD) := by
  have h : fieldOp s.fetchWord = (s.peek s.pc.toNat).extractLsb' 4 4 := by
    apply BitVec.eq_of_toNat_eq
    rw [fieldOp_toNat, State.fetchWord, toNat_append', BitVec.extractLsb'_toNat, Nat.shiftRight_eq_div_pow]
    omega
  rw [nextIsDraw, h]; rfl

/-- Under `halt_before_draw` the loop ends before a draw that is not the frame's first instruction (R170, R171). -/
theorem loopEnds_before_draw {s : State} {ran : Nat} (hran : 1 ≤ ran) (hhalt : s.cfg.haltBeforeDraw = true)
    (hdraw : nextIsDraw s = true) (left : Nat) : loopEnds ran left s = true := by
  cases left with
  | zero => rfl
  | succ left => simp [loopEnds, hran, hhalt, hdraw]

theorem decode_familyD {w : Word} (hop : fieldOp w = 0xD) : decode w = .drw (fieldX w) (fieldY w) (fieldN w) := by
  simp [decode, hop]

/-- Settles O53: the loop ends before a later draw, and not before a first one. -/
theorem haltBeforeDrawEndsLoop : Obligations.HaltBeforeDrawEndsLoop := by
  intro s ran left t hp hw hhalt hop h
  constructor
  · intro hran
    have hdraw : nextIsDraw s = true := by simp [nextIsDraw_eq, hop]
    exact next_inj (h.symm.trans (step_of_loopEnds hp (loopEnds_before_draw hran hhalt hdraw left)))
  · rintro rfl hleft
    obtain ⟨left, rfl⟩ := Nat.exists_eq_succ_of_ne_zero hleft.ne'
    have hexec := (step_of_running hp (loopEnds_first hw left)).symm.trans h
    rw [decode_familyD hop] at hexec
    refine ⟨(exec_keeps_phase hexec).trans (fetch_phase 0 _ s), ?_, _, hexec, afterFetch_diags _, ?_⟩
    · rw [exec_keeps_pc hexec rfl, afterFetch_only]; rfl
    · rw [afterFetch_only]; rfl

/-! ### The budget (R172) -/

/-- Every step keeps the place in the frame in agreement with the budget (R170, R172). -/
theorem step_keeps_phaseOk {s t : State} (hs : s.phaseOk) (h : step s = .next t) : t.phaseOk := by
  obtain ⟨-, hstep⟩ | ⟨-, hstep⟩ | ⟨ran, left, -, -, hstep⟩ | ⟨ran, left, hp, hloop, -, hstep⟩ := step_cases s
  case inr.inr.inr => -- an instruction runs: it takes one from what is left
    obtain ⟨hbudget, -⟩ := (State.phaseOk_running hp).1 hs
    have hleft := loopEnds_eq_false_left hloop
    have hp' := (exec_keeps_phase (hstep.symm.trans h)).trans (fetch_phase ran left s)
    refine (State.phaseOk_running hp').2 ⟨?_, fun _ => Nat.succ_pos ran⟩
    rw [step_keeps_cfg h]
    omega
  all_goals cases next_inj (hstep.symm.trans h)
  case inl => exact beginFrame_phaseOk s
  all_goals trivial

/-- Settles O54: what has run and what is left make the budget in every state of the run. -/
theorem frameRunsAtMostBudget : Obligations.FrameRunsAtMostBudget := by
  intro s t k ran left hs hrun ht
  have hstart : s.phaseOk := by simp [State.phaseOk, hs]
  have hok := runsTo_keeps State.phaseOk (fun _ _ => step_keeps_phaseOk) hrun hstart
  obtain ⟨hbudget, -⟩ := (State.phaseOk_running ht).1 hok
  omega

end Sys2Proof.Machine
end

section
/-! PROOFS. The steps of one frame make `Frame(keys)` (R170): the loop of `Frame` is simulated by the steps taken with
the loop's counters as the place in the frame. -/

namespace Sys2Proof.Machine

theorem setPhase_eq_self {s : State} {p : Phase} (h : s.phase = p) : s.setPhase p = s := h ▸ rfl

/-- The end of the loop does not depend on the place in the frame that the state holds. -/
@[simp] theorem loopEnds_setPhase (ran left : Nat) (p : Phase) (s : State) :
    loopEnds ran left (s.setPhase p) = loopEnds ran left s := rfl

/-- A loop that goes on is in a Running machine (R170). -/
theorem loopEnds_eq_false_keyWaiting {ran left : Nat} {s : State} (h : loopEnds ran left s = false) :
    s.keyWaiting = false := by
  cases left with
  | zero => cases h
  | succ left =>
    rw [loopEnds, Bool.or_eq_false_iff] at h
    exact h.1

/-! ### The loop of `Frame` -/

theorem frameLoop_of_loopEnds {left ran : Nat} {s : State} (h : loopEnds ran left s = true) :
    frameLoop left ran s = .next s := by
  cases left with
  | zero => rfl
  | succ left => exact if_pos h

/-- A loop that goes on runs one instruction; the step that counts it runs the same one. -/
theorem frameLoop_of_runs {left ran : Nat} {s : State} (h : loopEnds ran (left + 1) s = false) :
    ∃ t, frameLoop (left + 1) ran s = frameLoop left (ran + 1) t ∧ t.phase = s.phase ∧
      step (s.setPhase (.running ran (left + 1))) = .next (t.setPhase (.running (ran + 1) left)) := by
  obtain ⟨t, ht⟩ := exec_completes (decode s.fetchWord) s.afterFetch
  have hcpu : cpuStep s = .next t := (if_neg (by simp [loopEnds_eq_false_keyWaiting h])).trans ht
  refine ⟨t, ?_, ?_, ?_⟩
  · rw [frameLoop, h, hcpu]; rfl
  · rw [exec_keeps_phase ht, afterFetch_only]
  · have hfetch : (countInstr ran (left + 1) (s.setPhase (.running ran (left + 1)))).afterFetch =
        s.afterFetch.setPhase (.running (ran + 1) left) := afterFetch_setPhase _ s
    rw [step_of_running (s := s.setPhase _) rfl h, hfetch]
    exact exec_setPhase _ _ _ _ ht

/-- The steps from the loop's counters to the loop's exit make the loop of `Frame`. -/
theorem frameLoop_runsTo (left ran : Nat) (s : State) :
    ∃ k t, frameLoop left ran s = .next t ∧ t.phase = s.phase ∧
      RunsTo k (s.setPhase (.running ran left)) (t.setPhase .tickDue) := by
  induction left generalizing ran s with
  | zero => exact ⟨1, s, rfl, rfl, _, step_of_loopEnds rfl rfl, rfl⟩
  | succ left ih =>
    cases hends : loopEnds ran (left + 1) s with
    | true => exact ⟨1, s, frameLoop_of_loopEnds hends, rfl, _, step_of_loopEnds rfl hends, rfl⟩
    | false =>
      obtain ⟨u, hloop, hu, hstep⟩ := frameLoop_of_runs hends
      obtain ⟨k, t, ht, hphase, hrun⟩ := ih (ran + 1) u
      exact ⟨k + 1, t, hloop.trans ht, hphase.trans hu, _, hstep, hrun⟩

/-! ### The branch of a frame, and its tick -/

/-- In a Running machine `Frame` is the loop with the whole budget, then one tick (R170). -/
theorem frame_running {keys : Keys} {s t : State} (hw : s.keyWaiting = false)
    (h : frameLoop s.cfg.instructionsPerFrame 0 (s.setKeys keys) = .next t) : frame keys s = .next (tick t) := by
  rw [frame, if_neg (by simp [hw]), h]

/-- From the beginning of a frame to its tick: the branch that `Frame` chooses (R170). -/
theorem beginFrame_runsTo (s : State) :
    ∃ k u, RunsTo k (beginFrame s) (u.setPhase .tickDue) ∧ u.phase = s.phase ∧
      frame s.nextKeys s.takeKeys = .next (tick u) := by
  cases hw : s.keyWaiting with
  | true =>
    refine ⟨0, keyService s.nextKeys s.takeKeys, beginFrame_waiting hw, ?_, if_pos hw⟩
    rw [keyService_only]; rfl
  | false =>
    obtain ⟨k, u, hloop, hphase, hrun⟩ := frameLoop_runsTo s.cfg.instructionsPerFrame 0 s.takeKeys
    exact ⟨k, u, (beginFrame_running hw).symm ▸ hrun, hphase, frame_running (s := s.takeKeys) hw hloop⟩

/-- The last step of a frame is its tick, and the next frame's start follows. -/
theorem tick_runsTo {u : State} (hu : u.phase = .frameStart) : RunsTo 1 (u.setPhase .tickDue) (tick u) :=
  ⟨endFrame (u.setPhase .tickDue), rfl, setPhase_eq_self (s := tick u) hu⟩

/-- Settles O52: the step that begins the frame, the branch, the tick. -/
theorem stepsOfOneFrameAreFrame : Obligations.StepsOfOneFrameAreFrame := by
  intro s hs
  obtain ⟨k, u, hbranch, hu, hframe⟩ := beginFrame_runsTo s
  have hbegin : step s = .next (beginFrame s) := by simp [step, hs]
  exact ⟨k + 1 + 1, tick u, Nat.succ_pos _, hframe, hu.trans hs, _, hbegin,
    runsTo_add hbranch (tick_runsTo (hu.trans hs))⟩

end Sys2Proof.Machine
end

section
/-! PROOFS. The idle jump, and what reset leaves when it loads a program (R82, R181, R183, R189). -/

namespace Sys2Proof.Machine

/-! ### The idle jump -/

/-- Settles O23: the fetch is silent, and the jump takes `pc` back to where it was. -/
theorem selfJumpIsIdle : Obligations.SelfJumpIsIdle := by
  intro s nnn ran left habout hpc hrange hword
  obtain ⟨u, hstep, -, hphase, hdiags, hu⟩ := stepRunsDecodedInstruction (.jp nnn) s ran left rfl habout hword
  have hback : zext16 nnn = s.pc := BitVec.eq_of_toNat_eq ((zext16_toNat nnn).trans hpc.symm)
  have hinRange : s.pc.toNat + 2 - 4096 = 0 := by omega
  have hsilent : u.diags = s.diags := by simpa [hinRange] using hdiags
  calc step s = .next (u.setPc (zext16 nnn)) := hstep
    _ = .next { s with phase := .running (ran + 1) (left - 1) } := by rw [hback, hu, hphase, hsilent]; rfl

/-! ### Reset with a program -/

theorem Memory.unlisted_font (font : Font) (a : Fin 80) : Memory.unlisted font a.val = font[a.val] := dif_pos a.isLt

theorem Memory.unlisted_zero (font : Font) {a : Nat} (ha : 80 ≤ a) : Memory.unlisted font a = 0 := dif_neg ha.not_gt

/-- Memory that lists nothing reads as its reset content, above 4095 too, where both are 0 (R32, R42). -/
theorem peek_of_mem_nil {s : State} (hs : s.mem = []) (a : Nat) : s.peek a = Memory.unlisted s.cfg.font a := by
  by_cases ha : a < memSize
  · rw [State.peek, if_pos ha, hs, Memory.read]
  · have hfont : 80 ≤ a := le_trans (by decide) (not_lt.1 ha)
    exact (if_neg ha).trans (Memory.unlisted_zero _ hfont).symm

/-- A byte after `Reset(program)`: a program byte where one is loaded, else the reset content (R32, R181). -/
theorem resetWith_peek (cfg : Config) (program : List Byte) (a : Nat) :
    (State.resetWith cfg program).peek a =
      if 0x200 ≤ a ∧ a < 0x200 + (program.take progMax).length ∧ a < memSize then
        (program.take progMax).getD (a - 0x200) 0
      else Memory.unlisted cfg.font a := by
  rw [State.resetWith, peek_memWriteList _ _ _ _ (reset_memory_wf cfg.font), peek_of_mem_nil rfl]
  rfl

/-- An address below 0x200, or beyond the program's end, keeps its reset content (R181). -/
theorem resetWith_peek_outside (cfg : Config) (program : List Byte) {a : Nat}
    (ha : a < 0x200 ∨ 0x200 + program.length ≤ a) :
    (State.resetWith cfg program).peek a = Memory.unlisted cfg.font a := by
  have hlen : (program.take progMax).length ≤ program.length := List.length_take_le' ..
  rw [resetWith_peek, if_neg (by omega)]

/-- A byte of the program among the first 3584 is where it was loaded (R181). -/
theorem resetWith_peek_program (cfg : Config) {program : List Byte} {j : Nat} (h : j < program.length)
    (hj : j < 3584) : (State.resetWith cfg program).peek (0x200 + j) = program[j] := by
  have hlen : j < (program.take progMax).length := by
    rw [List.length_take]; exact lt_min hj h
  have hmem : 0x200 + j < memSize := by unfold memSize; omega
  rw [resetWith_peek, if_pos ⟨by omega, by omega, hmem⟩, Nat.add_sub_cancel_left,
    List.getD_eq_getElem _ _ hlen, List.getElem_take]

/-- What is kept of a program fits between 0x200 and the end of memory, so loading it records nothing (R181, R183). -/
theorem resetWith_diags (cfg : Config) (program : List Byte) : (State.resetWith cfg program).diags = [] := by
  have hlen : (program.take progMax).length ≤ progMax := List.length_take_le ..
  have hfits : loadOrigin + (program.take progMax).length - memSize = 0 := by
    unfold progMax loadOrigin memSize at *; omega
  rw [State.resetWith, memWriteList_diags, hfits, Nat.min_zero]
  rfl

/-- Loading a program changes memory, nothing else (R181). -/
theorem resetWith_only (cfg : Config) (program : List Byte) :
    State.resetWith cfg program = { State.reset with cfg := cfg, mem := (State.resetWith cfg program).mem } :=
  calc State.resetWith cfg program
    _ = { State.reset with cfg := cfg, mem := (State.resetWith cfg program).mem,
                           diags := (State.resetWith cfg program).diags } := memWriteList_only ..
    _ = { State.reset with cfg := cfg, mem := (State.resetWith cfg program).mem } := by
      rw [resetWith_diags]; rfl

/-- The store of the program keeps the canonical form; the rest of the invariant is that of reset. -/
theorem resetWith_inv (cfg : Config) (program : List Byte) : (State.resetWith cfg program).Inv := by
  obtain ⟨-, hi, htop, -⟩ := resetMeetsInvariant
  have hwf : Memory.wf (State.resetWith cfg program).cfg.font (State.resetWith cfg program).mem :=
    memWriteList_wf _ _ _ (reset_memory_wf cfg.font)
  rw [resetWith_only] at hwf ⊢
  exact ⟨hwf, hi, htop, trivial⟩

/-- Settles O56: loading the program is one ascending store of what is kept of it, which lies wholly in memory. -/
theorem resetLoadsProgram : Obligations.ResetLoadsProgram := fun cfg program =>
  ⟨fun _ h hj => resetWith_peek_program cfg h hj,
    fun a => (resetWith_peek_outside cfg program (.inl (by omega))).trans (Memory.unlisted_font cfg.font a),
    fun _ hlo hhi => (resetWith_peek_outside cfg program (.inl hhi)).trans (Memory.unlisted_zero cfg.font hlo),
    fun _ ha => (resetWith_peek_outside cfg program (.inr ha)).trans (Memory.unlisted_zero cfg.font (by omega)),
    resetWith_only cfg program, resetWith_inv cfg program⟩

end Sys2Proof.Machine
end
